-- ==== Sys2Proof/Word.lean ====
section
/-! DEFINITION. The widths the spec fixes: bytes, 32-bit time values and bus words, the 80-bit
FrameBuffer, the 16-bit sync pattern and the 48-bit stimulus word. -/

namespace Sys2Proof

/-- A byte-cell, a digit or a register address (R21, R35, R38). -/
abbrev Byte := BitVec 8

/-- The data of one bus access (D17), which is also what carries a time value or a threshold in
microseconds. How many of its bits a time value has is `Config.timeWidth` (`TW`, R8, log entry 17). -/
abbrev Word := BitVec 32

/-- The 16-bit sync pattern and the 16-bit time-field views (R31, R36). -/
abbrev Half := BitVec 16

/-- The whole FrameBuffer, `FB = CELL[0] ∥ ... ∥ CELL[9]` (R22). -/
abbrev FrameBits := BitVec 80

/-- The eight digit registers, `DIGIT[0]` first (R35). -/
abbrev Digits := Vector Byte 8

/-- One serialised operation, `op[47:40] addr[39:32] data[31:0]` (R88). -/
abbrev StimulusWord := BitVec 48

end Sys2Proof
end

