-- ==== Sys2Proof/Config.lean ====
section
/-! DEFINITION. The parameters the spec leaves to the implementation (R8, U2, U7, U9, U10), each a field
of `Config`, so that a claim can be stated for every value of them. The values this hardware takes
are `Machine.ltcdec` in Machine/Parameters.lean; `Machine.stepIn` steps the block of any `Config`. -/

namespace Sys2Proof

/-- The five named standard frame rates (R86, §4.1 of the document). -/
inductive FrameRate where
  | fps23_976
  | fps24
  | fps25
  | fps29_97
  | fps30
deriving DecidableEq, Repr

/-- The four window bounds, in microseconds; both windows are closed intervals (R30). -/
structure Windows where
  shortMin : Word
  shortMax : Word
  longMin  : Word
  longMax  : Word
deriving DecidableEq, Repr

/-- The registers of the host register space (R68). -/
inductive HostReg where
  | ctrl
  | status
  | rateSel
  | bitDur
  | syncPattern
  | shortMin
  | shortMax
  | longMin
  | longMax
  | cell (i : Fin 10)
  | digit (k : Fin 8)
  | hours
  | minutes
  | seconds
  | frames
deriving DecidableEq, Repr

/-- The three fields of a stimulus word (R88). -/
structure WordFields where
  op   : Byte
  addr : Byte
  data : Word
deriving DecidableEq, Repr

/-- What an implementation fixes (R8), one field or group of fields per row of R8's table.
Functions stand here and never in `State`. -/
structure Config where
  /-- `TW`: the width in bits of a time value, an interval and a threshold (D3, D8, U9). -/
  timeWidth : Nat
  /-- Rounding, for the bit duration: `bitdur_of_frame`, from a frame duration (U2, D5). -/
  bitDurOfFrame : Word → Word
  /-- Rounding, for the windows: `windows_of_bitdur`, the calibration formulas (U2, D5). -/
  windowsOfBitDur : Word → Windows
  /-- `BITDUR_OF_RATE`: the constant table of bit durations (D6). -/
  bitDurOfRate : FrameRate → Word
  /-- `RATE_SEL` codes: the rate a code names, `none` for a code that is not one of a rate (D7). -/
  rateOfSel : BitVec 3 → Option FrameRate
  /-- `RATE_SEL` codes: the code after `RESET_DUR` (D7). -/
  customSel : BitVec 3
  /-- The 16-bit compare convention: the compare value of `CELL[0]` and `CELL[1]` (D11). -/
  compareOfCells : Byte → Byte → Half
  /-- `pair_to_int`: from a digit pair to a time field (U10, D13). -/
  pairToInt : Byte → Byte → Half
  /-- `INIT_FB`: FrameBuffer after construction (U7, D15). -/
  initFb : FrameBits
  /-- `INIT_DIGITS`: the digits after construction (U7, D15). -/
  initDigits : Digits
  /-- `INIT_T_PREV`: the previous-edge time after construction (U7, D4). -/
  initTPrev : Word
  /-- Host interface: the register map, `none` for an unmapped address (D17). -/
  regOfAddr : Byte → Option HostReg
  /-- Stimulus word: where `op`, `addr` and `data` stand in the 48 bits (D19). -/
  splitWord : StimulusWord → WordFields
  /-- Clocking: how many presented inputs one clock cycle performs (D22); what a value other than 1
  means is the model's choice (log entry 18). -/
  inputsPerCycle : Nat

/-- `DEFAULT_SYNC`, the bit string `1011 1111 1111 1100` with its leftmost bit as bit 15 (R7, R31). -/
def Config.defaultSync : Half := 0xBFFC

end Sys2Proof
end

