-- ==== Sys2Proof/Machine/State.lean ====
section
/-! DEFINITION. The state of the block (R20), its outputs (R40, R80), the queue of presented inputs
(R27), the reasons a step can stop, and the state right after reset. -/

namespace Sys2Proof.Machine

open Sys2Proof

/-- HalfBitState (R28): the two decoder states of R133. -/
inductive HalfBitState where
  /-- `HALF = 0`. -/
  | idle
  /-- `HALF = 1`: a first short pulse awaits its second half. -/
  | halfBitPending
deriving DecidableEq, Repr

/-- The class of one interval (R132): `S`, `L` or `U`. -/
inductive PulseClass where
  | short
  | long
  | unrecognized
deriving DecidableEq, Repr

/-- The 357 bits of R20, and nothing else. -/
structure Block where
  /-- `CELL[0] ∥ ... ∥ CELL[9]` (R21, R22). -/
  fb : FrameBits
  /-- `HALF` (R28). -/
  half : HalfBitState
  /-- `T_PREV`, hidden from the host (R39). -/
  tPrev : Word
  /-- `RATE_SEL` (R29). -/
  rateSel : BitVec 3
  /-- `BIT_DUR` (R29). -/
  bitDur : Word
  /-- `SHORT_MIN` (R30). -/
  shortMin : Word
  /-- `SHORT_MAX` (R30). -/
  shortMax : Word
  /-- `LONG_MIN` (R30). -/
  longMin : Word
  /-- `LONG_MAX` (R30). -/
  longMax : Word
  /-- `SYNC_PATTERN` (R31). -/
  syncPattern : Half
  /-- `SYNC_EN`, `CTRL[0]` (R32). -/
  syncEn : Bool
  /-- `DIGIT[0]` to `DIGIT[7]` (R35). -/
  digits : Digits
deriving DecidableEq, Repr

/-- One element of `OUT`: a `SYNC` event with a copy of the digits as the event left them (R40, R205). -/
structure SyncEvent where
  digits : Digits
deriving DecidableEq, Repr

/-- The output pins of the latest cycle (R80). -/
structure OutputPins where
  /-- `h_rdata`, carrying data only in a cycle of `h_re`. -/
  hRdata : Option Word
  /-- `sync`, high for the one cycle of a sync event with `SYNC_EN = 1` (R156). -/
  sync : Bool
deriving DecidableEq, Repr

/-- No read data and no pulse. -/
def OutputPins.low : OutputPins := { hRdata := none, sync := false }

/-- The input pins in one clock cycle (R80). -/
structure PinCycle where
  /-- `rst`. -/
  rst : Bool
  /-- `cfg_mode`: false is `RESET_RATE`, true is `RESET_DUR`. -/
  cfgMode : Bool
  /-- `cfg_sel`. -/
  cfgSel : BitVec 3
  /-- `cfg_dur`. -/
  cfgDur : Word
  /-- `edge`. -/
  edge : Bool
  /-- `time_us`. -/
  timeUs : Word
  /-- `h_we`. -/
  hWe : Bool
  /-- `h_re`. -/
  hRe : Bool
  /-- `h_addr`, shared by `WR` and `RD`. -/
  hAddr : Byte
  /-- `h_wdata`. -/
  hWdata : Word
deriving DecidableEq, Repr

/-- What the outside world presents: one stimulus word (R88), or one cycle's pins (R80). -/
inductive Input where
  | word (w : StimulusWord)
  | cycle (p : PinCycle)
deriving DecidableEq, Repr

/-- The machine: the block, its outputs and the inputs presented to it. -/
structure State where
  /-- Whether a reset operation has been performed (R231, log entry 2). -/
  constructed : Bool
  /-- The registers (R20). -/
  block : Block
  /-- `OUT`, oldest event first (R40, R205). -/
  out : List SyncEvent
  /-- The output pins of the latest cycle (R80, log entry 5). -/
  pins : OutputPins
  /-- The inputs presented and not yet performed, oldest first (R27, log entry 3). -/
  inputs : List Input
deriving DecidableEq, Repr

/-- The faults of the machine: there are none, so the type has no constructor. R200: "No operation
raises an exception, in any state, for any operand." Nothing raises a fault; this is the spec's own
statement, so neither safe nor unsafe is at stake. -/
inductive Fault where
deriving DecidableEq, Repr

/-- Why a step is refused. -/
inductive Refusal where
  /-- Raised by `exec` for an instruction with no meaning yet; no arm uses it. Safe: the model stops. -/
  | notModelled (mnemonic : String)
  /-- Raised by every operation but the two reset operations before the first reset operation
  (R231: such a trace "is refused"; U7). Safe: the spec gives these operations no meaning there. -/
  | notConstructed
deriving DecidableEq, Repr

/-- What a meaning answers. -/
abbrev Result := Host.Outcome State Fault Refusal

/-- The registers after `RESET_RATE 3` (R42, R110): `RATE_SEL`, `BIT_DUR` and the windows are those
of the 25 fps construction, the rest is the same after every construction. DESIGN CHOICE (log
entry 1): the spec's reset has an operand, and this is the one whose values the document confirms. -/
def Block.reset : Block where
  fb := 0
  half := .idle
  tPrev := 0
  rateSel := 3
  bitDur := 500
  shortMin := 167
  shortMax := 333
  longMin := 334
  longMax := 500
  syncPattern := 0xBFFC
  syncEn := false
  digits := #v[0, 0, 0, 0, 0, 0, 0, 0]

/-- The machine right after a reset operation (R42, R231), with nothing presented to it. -/
def State.reset : State where
  constructed := true
  block := .reset
  out := []
  pins := .low
  inputs := []

/-- The state with its registers changed by `f`, everything else kept. -/
def State.mapBlock (s : State) (f : Block → Block) : State := { s with block := f s.block }

/-- The start of a cycle: the pulse and the read data of the cycle before are gone (R80, R156). -/
def State.beginCycle (s : State) : State := { s with pins := .low }

/-- The state with `inputs` as the inputs still to be performed. -/
def State.withInputs (s : State) (inputs : List Input) : State := { s with inputs := inputs }

/-- `v` on `h_rdata` (R171). -/
def State.respond (s : State) (v : Word) : State := { s with pins := { s.pins with hRdata := some v } }

end Sys2Proof.Machine
end

