-- ==== Sys2Proof/Machine/Operands.lean ====
section
/-! DEFINITION. Operand forms: time values and rate codes (R8, R86), the width adaptation of the
32-bit bus (R64, R172), the cell, compare and digit views of the FrameBuffer (R22, R153, R155) and the
time fields (R36). -/

namespace Sys2Proof.Machine

open Sys2Proof

/-- A time value in the low `TW` bits (R8, D3); `TW` of 32 or more keeps all a bus word carries. -/
def timeOf (c : Config) (v : Word) : Word := BitVec.ofNat 32 (v.toNat % 2 ^ c.timeWidth)

/-- The codes of `RATE_SEL` that `RESET_RATE` takes: those that name a rate (R86, R94). -/
def namesRate (c : Config) (sel : BitVec 3) : Bool := (c.rateOfSel sel).isSome

/-- A narrow register on the bus: its value zero-extended (R172). -/
def zext32 {n : Nat} (v : BitVec n) : Word := v.setWidth 32

/-- The low `n` bits of the write data (R172). -/
def narrow (n : Nat) (data : Word) : BitVec n := data.setWidth n

/-- `data[0]` for the one-bit field of `CTRL` (R173). -/
def narrowBit (data : Word) : Bool := data.getLsbD 0

/-- `CELL[i] = FB[79-8i : 72-8i]` (R22). -/
def cellOf (fb : FrameBits) (i : Fin 10) : Byte := fb.extractLsb' (72 - 8 * i.val) 8

/-- `SYNC16`, the value compared with the sync pattern (R63, R153). -/
def compareValue (c : Config) (fb : FrameBits) : Half := c.compareOfCells (cellOf fb 0) (cellOf fb 1)

/-- `DIGIT[k] <- CELL[2+k]` for k = 0 to 7, all at once (R155). -/
def digitsOf (fb : FrameBits) : Digits :=
  #v[cellOf fb 2, cellOf fb 3, cellOf fb 4, cellOf fb 5,
     cellOf fb 6, cellOf fb 7, cellOf fb 8, cellOf fb 9]

/-- `HOURS`, digit pair 0-1 (R36, R182). -/
def hoursOf (c : Config) (d : Digits) : Half := c.pairToInt d[0] d[1]

/-- `MINUTES`, digit pair 2-3 (R36, R183). -/
def minutesOf (c : Config) (d : Digits) : Half := c.pairToInt d[2] d[3]

/-- `SECONDS`, digit pair 4-5 (R36, R184). -/
def secondsOf (c : Config) (d : Digits) : Half := c.pairToInt d[4] d[5]

/-- `FRAMES`, digit pair 6-7 (R36, R185). -/
def framesOf (c : Config) (d : Digits) : Half := c.pairToInt d[6] d[7]

end Sys2Proof.Machine
end

