-- ==== Sys2Proof/Machine/Calibration.lean ====
section
/-! DEFINITION. Construction's arithmetic (R112 to R116). -/

namespace Sys2Proof.Machine

open Sys2Proof

/-- The named rate of a selector; 0, 6 and 7 name none (R86). -/
def rateOfSel (sel : BitVec 3) : Option FrameRate :=
  match sel.toNat with
  | 1 => some .fps23_976
  | 2 => some .fps24
  | 3 => some .fps25
  | 4 => some .fps29_97
  | 5 => some .fps30
  | _ => none

/-- `BITDUR_OF_RATE` (R113, D6). -/
def bitDurOfRate : FrameRate → Word
  | .fps23_976 => 521
  | .fps24 => 521
  | .fps25 => 500
  | .fps29_97 => 417
  | .fps30 => 417

/-- `(fd + 40) div 80`, the sum formed exactly (R111, R113, R116). -/
def bitDurOfFrame (fd : Word) : Word := BitVec.ofNat 32 ((fd.toNat + 40) / 80)

/-- `(BIT_DUR + 1) div 3` (R114). -/
def shortMinOf (bitDur : Nat) : Nat := (bitDur + 1) / 3

/-- `(2*BIT_DUR + 1) div 3` (R114). -/
def shortMaxOf (bitDur : Nat) : Nat := (2 * bitDur + 1) / 3

/-- The four bounds of R114, computed without intermediate overflow (R116). -/
def windowsOfBitDur (bitDur : Word) : Windows where
  shortMin := BitVec.ofNat 32 (shortMinOf bitDur.toNat)
  shortMax := BitVec.ofNat 32 (shortMaxOf bitDur.toNat)
  longMin := BitVec.ofNat 32 (shortMaxOf bitDur.toNat + 1)
  longMax := bitDur

end Sys2Proof.Machine
end

