-- ==== Sys2Proof/Machine/Parameters.lean ====
section
/-! DEFINITION. The value this hardware takes for each parameter of R8: the register map (R68), the
fields of a stimulus word (R88), the compare convention (R63, R153), the pair function (R36), and
`ltcdec`, which gathers them with the calibration of Calibration.lean. -/

namespace Sys2Proof.Machine

open Sys2Proof

/-- The register an address names; `none` for an unmapped address (R68). -/
def regOfAddr (addr : Byte) : Option HostReg :=
  if addr = 0x00 then some .ctrl
  else if addr = 0x01 then some .status
  else if addr = 0x02 then some .rateSel
  else if addr = 0x03 then some .bitDur
  else if addr = 0x04 then some .syncPattern
  else if addr = 0x05 then some .shortMin
  else if addr = 0x06 then some .shortMax
  else if addr = 0x07 then some .longMin
  else if addr = 0x08 then some .longMax
  else if h : 0x10 ≤ addr.toNat ∧ addr.toNat < 0x10 + 10 then
    some (.cell ⟨addr.toNat - 0x10, by omega⟩)
  else if h : 0x20 ≤ addr.toNat ∧ addr.toNat < 0x20 + 8 then
    some (.digit ⟨addr.toNat - 0x20, by omega⟩)
  else if addr = 0x28 then some .hours
  else if addr = 0x29 then some .minutes
  else if addr = 0x2A then some .seconds
  else if addr = 0x2B then some .frames
  else none

/-- The address of a register (R68). -/
def addrOfReg : HostReg → Byte
  | .ctrl => 0x00
  | .status => 0x01
  | .rateSel => 0x02
  | .bitDur => 0x03
  | .syncPattern => 0x04
  | .shortMin => 0x05
  | .shortMax => 0x06
  | .longMin => 0x07
  | .longMax => 0x08
  | .cell i => BitVec.ofNat 8 (0x10 + i.val)
  | .digit k => BitVec.ofNat 8 (0x20 + k.val)
  | .hours => 0x28
  | .minutes => 0x29
  | .seconds => 0x2A
  | .frames => 0x2B

/-- `op = w[47:40]` (R88). -/
def opField (w : StimulusWord) : Byte := w.extractLsb' 40 8

/-- `addr = w[39:32]` (R88). -/
def addrField (w : StimulusWord) : Byte := w.extractLsb' 32 8

/-- `data = w[31:0]` (R88). -/
def dataField (w : StimulusWord) : Word := w.extractLsb' 0 32

/-- `op[47:40] addr[39:32] data[31:0]` (R88). -/
def splitWord (w : StimulusWord) : WordFields where
  op := opField w
  addr := addrField w
  data := dataField w

/-- `CELL[0]` is bits 15:8 and `CELL[1]` bits 7:0 (R63, R153, D11). -/
def compareOfCells (cell0 cell1 : Byte) : Half := cell0 ++ cell1

/-- `10*a + b` in 16 bits (R36, D13). -/
def pairToInt (a b : Byte) : Half := 10 * a.setWidth 16 + b.setWidth 16

/-- The values this hardware takes for the parameters of R8. -/
def ltcdec : Config where
  timeWidth := 32
  bitDurOfFrame := bitDurOfFrame
  windowsOfBitDur := windowsOfBitDur
  bitDurOfRate := bitDurOfRate
  rateOfSel := rateOfSel
  customSel := 0
  compareOfCells := compareOfCells
  pairToInt := pairToInt
  initFb := 0
  initDigits := #v[0, 0, 0, 0, 0, 0, 0, 0]
  initTPrev := 0
  regOfAddr := regOfAddr
  splitWord := splitWord
  inputsPerCycle := 1

end Sys2Proof.Machine
end

