-- ==== Sys2Proof/Syntax.lean ====
section
/-! DEFINITION. The operations of the block: one constructor per row of spec/opcode_table.json. -/

namespace Sys2Proof

/-- The five base operations (R4, R92) and the 22 rows that name particular `WR` and `RD` words
(R99, R100). `Instr.operation` (Decode.lean) gives the operation a row stands for. -/
inductive Instr where
  /-- `RESET_RATE sel` (R110). -/
  | resetRate (sel : BitVec 3)
  /-- `RESET_DUR fd` (R111). -/
  | resetDur (fd : Word)
  /-- `EDGE now` (R130). -/
  | edge (now : Word)
  /-- `WR addr, data` (R170). -/
  | wr (addr : Byte) (data : Word)
  /-- `RD addr` (R171). -/
  | rd (addr : Byte)
  /-- `ONSYNC` = `WR CTRL, 1` (R173). -/
  | onsync
  /-- `OFFSYNC` = `WR CTRL, 0` (R173). -/
  | offsync
  /-- `SET_SYNC p` = `WR SYNC_PATTERN, p` (R174); all 32 data bits of the word are kept. -/
  | setSync (data : Word)
  /-- `WR SHORT_MIN, v` (R175). -/
  | wrShortMin (data : Word)
  /-- `WR SHORT_MAX, v` (R175). -/
  | wrShortMax (data : Word)
  /-- `WR LONG_MIN, v` (R176). -/
  | wrLongMin (data : Word)
  /-- `WR LONG_MAX, v` (R176). -/
  | wrLongMax (data : Word)
  /-- `GET_CTRL` = `RD CTRL` (R187). -/
  | getCtrl
  /-- `GET_STATUS` = `RD STATUS` (R177). -/
  | getStatus
  /-- `GET_RATE` = `RD RATE_SEL` (R178). -/
  | getRate
  /-- `GET_BITDUR` = `RD BIT_DUR` (R179). -/
  | getBitdur
  /-- `GET_SYNC` = `RD SYNC_PATTERN` (R187). -/
  | getSync
  /-- `GET_SHORT_MIN` = `RD SHORT_MIN` (R187). -/
  | getShortMin
  /-- `GET_SHORT_MAX` = `RD SHORT_MAX` (R187). -/
  | getShortMax
  /-- `GET_LONG_MIN` = `RD LONG_MIN` (R187). -/
  | getLongMin
  /-- `GET_LONG_MAX` = `RD LONG_MAX` (R187). -/
  | getLongMax
  /-- `GET_CELL i` = `RD 0x10+i` (R180). -/
  | getCell (i : BitVec 4)
  /-- `GET_DIGIT k` = `RD 0x20+k` (R181). -/
  | getDigit (k : BitVec 3)
  /-- `GET_HOURS` = `RD HOURS` (R182). -/
  | getHours
  /-- `GET_MINUTES` = `RD MINUTES` (R183). -/
  | getMinutes
  /-- `GET_SECONDS` = `RD SECONDS` (R184). -/
  | getSeconds
  /-- `GET_FRAMES` = `RD FRAMES` (R185). -/
  | getFrames
deriving DecidableEq, Repr

end Sys2Proof
end

