-- ==== Sys2Proof/WellFormed.lean ====
section
/-! DEFINITION. Which terms of `Instr` are the decoding of a valid stimulus word. -/

namespace Sys2Proof

/-- The legal operands of `RESET_RATE` (R86, R94). -/
def legalRate (sel : BitVec 3) : Bool := 1 ≤ sel.toNat && sel.toNat ≤ 5

/-- The cell indices of `GET_CELL` (R180 and the row's constraint). -/
def legalCell (i : BitVec 4) : Bool := i.toNat ≤ 9

/-- The mapped addresses `0x00`-`0x08`, `0x10`-`0x19`, `0x20`-`0x2B` (R68). -/
def mapped (addr : Byte) : Bool :=
  addr.toNat ≤ 0x08 || (0x10 ≤ addr.toNat && addr.toNat ≤ 0x19) ||
    (0x20 ≤ addr.toNat && addr.toNat ≤ 0x2B)

/-- The `RD` words that a row of their own names (R99): exactly the reads of mapped addresses. -/
def rdNamed (addr : Byte) : Bool := mapped addr

/-- The `WR` words that a row of their own names (R99): every write of `SYNC_PATTERN` and the window
registers, and the writes of 0 and of 1 to `CTRL`. -/
def wrNamed (addr : Byte) (data : Word) : Bool :=
  (0x04 ≤ addr.toNat && addr.toNat ≤ 0x08) || (addr.toNat = 0x00 && data.toNat ≤ 1)

/-- A well-formed instruction is the one name of its word: its operands are legal, and a `WR` or `RD`
term stands only for a word that no more specific row names (log entry 4). The meaning of a term
does not depend on this check. -/
def Instr.wf : Instr → Bool
  | .resetRate sel => legalRate sel
  | .wr addr data => !wrNamed addr data
  | .rd addr => !rdNamed addr
  | .getCell i => legalCell i
  | .resetDur _ | .edge _ | .onsync | .offsync | .setSync _ => true
  | .wrShortMin _ | .wrShortMax _ | .wrLongMin _ | .wrLongMax _ => true
  | .getCtrl | .getStatus | .getRate | .getBitdur | .getSync => true
  | .getShortMin | .getShortMax | .getLongMin | .getLongMax => true
  | .getDigit _ | .getHours | .getMinutes | .getSeconds | .getFrames => true

end Sys2Proof
end

