-- ==== Sys2Proof/Decode.lean ====
section
/-! DEFINITION. The stimulus-word decoder (R88 to R95), total on 48-bit words and rejecting by name,
and the encoder written from the same tables. -/

namespace Sys2Proof

open Sys2Proof.Machine

/-- Why a stimulus word is invalid (R94). -/
inductive InvalidWord where
  /-- `op` is `0x00` or `0x06` to `0xFF`. -/
  | unassignedOp
  /-- A nonzero `addr` in format C or E. -/
  | nonzeroAddr
  /-- Nonzero `data[31:3]` in `RESET_RATE`, or nonzero `data` in `RD`. -/
  | nonzeroReserved
  /-- `RESET_RATE` with `sel` = 0, 6 or 7. -/
  | illegalRate
deriving DecidableEq, Repr

/-- `op ∥ addr ∥ data` (R88). -/
def packWord (op addr : Byte) (data : Word) : StimulusWord := op ++ addr ++ data

/-- Format C, `RESET_RATE` (R89): `addr` and `data[31:3]` must be 0 and `sel = data[2:0]` name a rate. -/
def decodeResetRate (c : Config) (addr : Byte) (data : Word) : Except InvalidWord Instr :=
  if addr ≠ 0 then .error .nonzeroAddr
  else if data.extractLsb' 3 29 ≠ 0 then .error .nonzeroReserved
  else if namesRate c (data.extractLsb' 0 3) then .ok (.resetRate (data.extractLsb' 0 3))
  else .error .illegalRate

/-- The five base operations by their fields and nothing else (R92, R94). -/
def decodeFields (c : Config) (f : WordFields) : Except InvalidWord Instr :=
  if f.op = 0x01 then decodeResetRate c f.addr f.data
  else if f.op = 0x02 then if f.addr = 0 then .ok (.resetDur f.data) else .error .nonzeroAddr
  else if f.op = 0x03 then if f.addr = 0 then .ok (.edge f.data) else .error .nonzeroAddr
  else if f.op = 0x04 then .ok (.wr f.addr f.data)
  else if f.op = 0x05 then if f.data = 0 then .ok (.rd f.addr) else .error .nonzeroReserved
  else .error .unassignedOp

/-- The base operation of a word of this hardware. -/
def decodeBase (w : StimulusWord) : Except InvalidWord Instr := decodeFields ltcdec (splitWord w)

/-- The most specific row of spec/opcode_table.json for a `WR` word. -/
def nameWr (addr : Byte) (data : Word) : Instr :=
  if addr = 0x00 then
    if data = 1 then .onsync else if data = 0 then .offsync else .wr addr data
  else if addr = 0x04 then .setSync data
  else if addr = 0x05 then .wrShortMin data
  else if addr = 0x06 then .wrShortMax data
  else if addr = 0x07 then .wrLongMin data
  else if addr = 0x08 then .wrLongMax data
  else .wr addr data

/-- The most specific row of spec/opcode_table.json for an `RD` word. -/
def nameRd (addr : Byte) : Instr :=
  if addr = 0x00 then .getCtrl
  else if addr = 0x01 then .getStatus
  else if addr = 0x02 then .getRate
  else if addr = 0x03 then .getBitdur
  else if addr = 0x04 then .getSync
  else if addr = 0x05 then .getShortMin
  else if addr = 0x06 then .getShortMax
  else if addr = 0x07 then .getLongMin
  else if addr = 0x08 then .getLongMax
  else if addr.extractLsb' 4 4 = 0x1 ∧ legalCell (addr.extractLsb' 0 4) then
    .getCell (addr.extractLsb' 0 4)
  else if addr.extractLsb' 3 5 = 0b00100 then .getDigit (addr.extractLsb' 0 3)
  else if addr = 0x28 then .getHours
  else if addr = 0x29 then .getMinutes
  else if addr = 0x2A then .getSeconds
  else if addr = 0x2B then .getFrames
  else .rd addr

/-- The most specific row for a base operation (log entry 4). -/
def nameInstr : Instr → Instr
  | .wr addr data => nameWr addr data
  | .rd addr => nameRd addr
  | i => i

/-- The decoder for the block of any `Config`: one of the operations with its operands, or invalid
with its reason (R94). -/
def decodeIn (c : Config) (w : StimulusWord) : Except InvalidWord Instr :=
  (decodeFields c (c.splitWord w)).map nameInstr

/-- The decoder of this hardware. -/
def decode (w : StimulusWord) : Except InvalidWord Instr := decodeIn ltcdec w

/-- "The block performs exactly five kinds of operation" (R4). -/
inductive Operation where
  | resetRate (sel : BitVec 3)
  | resetDur (fd : Word)
  | edge (now : Word)
  | write (addr : Byte) (data : Word)
  | read (addr : Byte)
deriving DecidableEq, Repr

/-- The operation a row stands for (R99, R100 `alias_of`). -/
def Instr.operation : Instr → Operation
  | .resetRate sel => .resetRate sel
  | .resetDur fd => .resetDur fd
  | .edge now => .edge now
  | .wr addr data => .write addr data
  | .rd addr => .read addr
  | .onsync => .write 0x00 1
  | .offsync => .write 0x00 0
  | .setSync data => .write 0x04 data
  | .wrShortMin data => .write 0x05 data
  | .wrShortMax data => .write 0x06 data
  | .wrLongMin data => .write 0x07 data
  | .wrLongMax data => .write 0x08 data
  | .getCtrl => .read 0x00
  | .getStatus => .read 0x01
  | .getRate => .read 0x02
  | .getBitdur => .read 0x03
  | .getSync => .read 0x04
  | .getShortMin => .read 0x05
  | .getShortMax => .read 0x06
  | .getLongMin => .read 0x07
  | .getLongMax => .read 0x08
  | .getCell i => .read (0x1#4 ++ i)
  | .getDigit k => .read (0b00100#5 ++ k)
  | .getHours => .read 0x28
  | .getMinutes => .read 0x29
  | .getSeconds => .read 0x2A
  | .getFrames => .read 0x2B

/-- The row of an operation's own name. -/
def Operation.instr : Operation → Instr
  | .resetRate sel => .resetRate sel
  | .resetDur fd => .resetDur fd
  | .edge now => .edge now
  | .write addr data => .wr addr data
  | .read addr => .rd addr

/-- The base row a row stands for. -/
def Instr.base (i : Instr) : Instr := i.operation.instr

/-- The word of an instruction, row by row from the `encoding` column of spec/opcode_table.json. -/
def encode : Instr → StimulusWord
  | .resetRate sel => packWord 0x01 0x00 (sel.setWidth 32)
  | .resetDur fd => packWord 0x02 0x00 fd
  | .edge now => packWord 0x03 0x00 now
  | .wr addr data => packWord 0x04 addr data
  | .rd addr => packWord 0x05 addr 0
  | .onsync => packWord 0x04 0x00 1
  | .offsync => packWord 0x04 0x00 0
  | .setSync data => packWord 0x04 0x04 data
  | .wrShortMin data => packWord 0x04 0x05 data
  | .wrShortMax data => packWord 0x04 0x06 data
  | .wrLongMin data => packWord 0x04 0x07 data
  | .wrLongMax data => packWord 0x04 0x08 data
  | .getCtrl => packWord 0x05 0x00 0
  | .getStatus => packWord 0x05 0x01 0
  | .getRate => packWord 0x05 0x02 0
  | .getBitdur => packWord 0x05 0x03 0
  | .getSync => packWord 0x05 0x04 0
  | .getShortMin => packWord 0x05 0x05 0
  | .getShortMax => packWord 0x05 0x06 0
  | .getLongMin => packWord 0x05 0x07 0
  | .getLongMax => packWord 0x05 0x08 0
  | .getCell i => packWord 0x05 (0x1#4 ++ i) 0
  | .getDigit k => packWord 0x05 (0b00100#5 ++ k) 0
  | .getHours => packWord 0x05 0x28 0
  | .getMinutes => packWord 0x05 0x29 0
  | .getSeconds => packWord 0x05 0x2A 0
  | .getFrames => packWord 0x05 0x2B 0

/-- The decoder on a number, as spec/opcode_table.json numbers the 48 bits of a word: bit 0 is
`w[0]`, bits 47 to 40 are `op`. Every instruction is one 48-bit word (R96). -/
def decodeTableWord (nbits w : Nat) : Option Instr :=
  if nbits ≤ 48 then
    match decode (BitVec.ofNat 48 (w % 2 ^ nbits)) with
    | .ok i => some i
    | .error _ => none
  else none

end Sys2Proof
end

