-- ==== Sys2Proof/Machine/Flags.lean ====
section
/-! DEFINITION. The one flag, `HALF` (R28): the pulse classes that drive it (R131, R132) and its
transition function (R133). -/

namespace Sys2Proof.Machine

open Sys2Proof

/-- `HALF` as the bit the host reads (R28, R33). -/
def HalfBitState.toBit : HalfBitState → BitVec 1
  | .idle => 0
  | .halfBitPending => 1

/-- `dt = (now - T_PREV) mod 2^TW`, with `TW = 32` on this hardware (R131, D3, U9). -/
def intervalOf (c : Config) (b : Block) (now : Word) : Nat :=
  (now.toNat + (2 ^ c.timeWidth - b.tPrev.toNat % 2 ^ c.timeWidth)) % 2 ^ c.timeWidth

/-- `classify(dt)`: closed windows, unsigned comparisons, short first (R132, D9). -/
def classify (b : Block) (dt : Nat) : PulseClass :=
  if b.shortMin.toNat ≤ dt ∧ dt ≤ b.shortMax.toNat then .short
  else if b.longMin.toNat ≤ dt ∧ dt ≤ b.longMax.toNat then .long
  else .unrecognized

/-- The next decoder state, six cases (R133). -/
def nextHalf : HalfBitState → PulseClass → HalfBitState
  | .idle, .short => .halfBitPending
  | .halfBitPending, .short => .idle
  | .idle, .long => .idle
  | .halfBitPending, .long => .idle
  | .idle, .unrecognized => .idle
  | .halfBitPending, .unrecognized => .halfBitPending

/-- The logical bit emitted, six cases (R133). -/
def emittedBit : HalfBitState → PulseClass → Option (BitVec 1)
  | .idle, .short => none
  | .halfBitPending, .short => some 1
  | .idle, .long => some 0
  | .halfBitPending, .long => none
  | .idle, .unrecognized => none
  | .halfBitPending, .unrecognized => none

end Sys2Proof.Machine
end

