-- ==== Sys2Proof/Machine/Ops.lean ====
section
/-! DEFINITION. The shared operations: construction (R110, R111), the `emit` procedure (R150), edge
processing (R130) and the host's read and write of one register (R170, R171), and from them the five
operations of R4, each for the block of any `Config` (R8). There is no exception to take and none to
return from (R200, R209), so no operation for either stands here. -/

namespace Sys2Proof.Machine

open Sys2Proof

/-- Only the two reset operations have a meaning before the first of them (R231, U7). -/
def whenConstructed (s : State) (t : State) : Result :=
  if s.constructed then .next t else .refused .notConstructed

/-- The registers after construction (R42, R110): calibration from the bit duration, the sync pattern
at its default, every other element at its initial value. The windows are formed from `BIT_DUR` as it
was just written (R110), so from its low `TW` bits (R10; that time values have `TW` bits, log entry 17). -/
def constructBlock (c : Config) (rateSel : BitVec 3) (bitDur : Word) : Block where
  fb := c.initFb
  half := .idle
  tPrev := timeOf c c.initTPrev
  rateSel := rateSel
  bitDur := timeOf c bitDur
  shortMin := timeOf c (c.windowsOfBitDur (timeOf c bitDur)).shortMin
  shortMax := timeOf c (c.windowsOfBitDur (timeOf c bitDur)).shortMax
  longMin := timeOf c (c.windowsOfBitDur (timeOf c bitDur)).longMin
  longMax := timeOf c (c.windowsOfBitDur (timeOf c bitDur)).longMax
  syncPattern := Config.defaultSync
  syncEn := false
  digits := c.initDigits

/-- A reset operation: every element of the block, whatever it held, and an empty `OUT` (R43, R110).
It produces no `sync` pulse and no read data, and the inputs still to come are the environment's. -/
def construct (c : Config) (rateSel : BitVec 3) (bitDur : Word) (s : State) : State :=
  { s with constructed := true, block := constructBlock c rateSel bitDur, out := [] }

/-- `FB <- b ∥ FB[79:1]` (R150, R151). -/
def shiftIn (bit : BitVec 1) (fb : FrameBits) : FrameBits := bit ++ fb.extractLsb' 1 79

/-- `output SYNC`: one event appended to `OUT` and the one-cycle pulse (R156, R205). -/
def outputSync (s : State) : State :=
  { s with out := s.out ++ [{ digits := s.block.digits }], pins := { s.pins with sync := true } }

/-- A sync event: the extraction, then the callback if one is registered (R155, R156, R157). -/
def syncEvent (s : State) : State :=
  let t := s.mapBlock fun b => { b with digits := digitsOf b.fb }
  if t.block.syncEn then outputSync t else t

/-- `emit(b)`: shift, then compare the new FrameBuffer, then extract on equality (R150, R153). -/
def emit (c : Config) (bit : BitVec 1) (s : State) : State :=
  let t := s.mapBlock fun b => { b with fb := shiftIn bit b.fb }
  if compareValue c t.block.fb = t.block.syncPattern then syncEvent t else t

/-- `emit` where R133 emits a bit, nothing where it does not. -/
def emitIfAny (c : Config) : Option (BitVec 1) → State → State
  | some bit, s => emit c bit s
  | none, s => s

/-- One line transition at `now` (R130): the interval is classified against the registers as they
stand, `T_PREV` and `HALF` are written, and then the bit is emitted if there is one (R157). -/
def processEdge (c : Config) (now : Word) (s : State) : State :=
  let k := classify s.block (intervalOf c s.block now)
  emitIfAny c (emittedBit s.block.half k)
    (s.mapBlock fun b => { b with tPrev := timeOf c now, half := nextHalf s.block.half k })

/-- The value of one register (R171). -/
def readReg (c : Config) (b : Block) : HostReg → Word
  | .ctrl => zext32 (BitVec.ofBool b.syncEn)
  | .status => zext32 b.half.toBit
  | .rateSel => zext32 b.rateSel
  | .bitDur => b.bitDur
  | .syncPattern => zext32 b.syncPattern
  | .shortMin => b.shortMin
  | .shortMax => b.shortMax
  | .longMin => b.longMin
  | .longMax => b.longMax
  | .cell i => zext32 (cellOf b.fb i)
  | .digit k => zext32 b.digits[k]
  | .hours => zext32 (hoursOf c b.digits)
  | .minutes => zext32 (minutesOf c b.digits)
  | .seconds => zext32 (secondsOf c b.digits)
  | .frames => zext32 (framesOf c b.digits)

/-- `MemRead(addr, 4)`: an unmapped address reads 0 (R69, R171). -/
def hostRead (c : Config) (b : Block) (addr : Byte) : Word :=
  match c.regOfAddr addr with
  | some r => readReg c b r
  | none => 0

/-- The write of one register; a read-only register keeps its value (R69, R170). -/
def writeReg (c : Config) (b : Block) (data : Word) : HostReg → Block
  | .ctrl => { b with syncEn := narrowBit data }
  | .syncPattern => { b with syncPattern := narrow 16 data }
  | .shortMin => { b with shortMin := timeOf c data }
  | .shortMax => { b with shortMax := timeOf c data }
  | .longMin => { b with longMin := timeOf c data }
  | .longMax => { b with longMax := timeOf c data }
  | .status | .rateSel | .bitDur | .cell _ | .digit _ | .hours | .minutes | .seconds | .frames => b

/-- `MemWrite(addr, 4, data)`: an unmapped address takes nothing (R69, R170). -/
def hostWriteIn (c : Config) (b : Block) (addr : Byte) (data : Word) : Block :=
  match c.regOfAddr addr with
  | some r => writeReg c b data r
  | none => b

/-- `MemWrite(addr, 4, data)` on this hardware. -/
def hostWrite (b : Block) (addr : Byte) (data : Word) : Block := hostWriteIn ltcdec b addr data

/-! ### The five operations (R4) -/

/-- `RESET_RATE sel` (R110): with a `sel` that names no rate "nothing happens" (R94, R110). -/
def resetRateIn (c : Config) (sel : BitVec 3) (s : State) : Result :=
  match c.rateOfSel sel with
  | some r => .next (construct c sel (c.bitDurOfRate r) s)
  | none => .next s

/-- `RESET_DUR fd` (R111); `fd` is taken as a time value of `TW` bits (log entry 17). -/
def resetDurIn (c : Config) (fd : Word) (s : State) : Result :=
  .next (construct c c.customSel (c.bitDurOfFrame (timeOf c fd)) s)

/-- `EDGE now` (R130). -/
def edgeIn (c : Config) (now : Word) (s : State) : Result := whenConstructed s (processEdge c now s)

/-- `WR addr, data`: the named register and nothing else (R67, R170). -/
def writeIn (c : Config) (addr : Byte) (data : Word) (s : State) : Result :=
  whenConstructed s (s.mapBlock fun b => hostWriteIn c b addr data)

/-- `RD addr`: the value goes to `h_rdata` and no register changes (R67, R171). -/
def readIn (c : Config) (addr : Byte) (s : State) : Result :=
  whenConstructed s (s.respond (hostRead c s.block addr))

/-- `RD addr` on this hardware. -/
def performRead (addr : Byte) (s : State) : Result := readIn ltcdec addr s

/-- `WR addr, data` on this hardware. -/
def performWrite (addr : Byte) (data : Word) (s : State) : Result := writeIn ltcdec addr data s

end Sys2Proof.Machine
end

