-- ==== Sys2Proof/Machine/Construct.lean ====
section
/-! DEFINITION. The reset operations `RESET_RATE` and `RESET_DUR`. -/

namespace Sys2Proof.Machine

open Sys2Proof

/-- `RESET_RATE sel` (R110). With `sel` = 0, 6 or 7 "nothing happens" (R94, R110): no decoded word
carries one, and the pins' `rst` strobe with one is ignored (log entry 9). -/
def execResetRate (sel : BitVec 3) (s : State) : Result := resetRateIn ltcdec sel s

/-- `RESET_DUR fd` (R111): every `fd` is accepted. -/
def execResetDur (fd : Word) (s : State) : Result := resetDurIn ltcdec fd s

end Sys2Proof.Machine
end

