-- ==== Sys2Proof/Machine/Edge.lean ====
section
/-! DEFINITION. The operation `EDGE`. -/

namespace Sys2Proof.Machine

open Sys2Proof

/-- `EDGE now` (R130). -/
def execEdge (now : Word) (s : State) : Result := edgeIn ltcdec now s

end Sys2Proof.Machine
end

