-- ==== Sys2Proof/Machine/HostRead.lean ====
section
/-! DEFINITION. The host read `RD` and the rows that name one of its words. -/

namespace Sys2Proof.Machine

open Sys2Proof

/-- `RD addr` (R171, R172). -/
def execRd (addr : Byte) (s : State) : Result := performRead addr s

/-- `GET_CTRL` (R187). -/
def execGetCtrl (s : State) : Result := performRead 0x00 s

/-- `GET_STATUS` (R177). -/
def execGetStatus (s : State) : Result := performRead 0x01 s

/-- `GET_RATE` (R178). -/
def execGetRate (s : State) : Result := performRead 0x02 s

/-- `GET_BITDUR` (R179). -/
def execGetBitdur (s : State) : Result := performRead 0x03 s

/-- `GET_SYNC` (R187). -/
def execGetSync (s : State) : Result := performRead 0x04 s

/-- `GET_SHORT_MIN` (R187). -/
def execGetShortMin (s : State) : Result := performRead 0x05 s

/-- `GET_SHORT_MAX` (R187). -/
def execGetShortMax (s : State) : Result := performRead 0x06 s

/-- `GET_LONG_MIN` (R187). -/
def execGetLongMin (s : State) : Result := performRead 0x07 s

/-- `GET_LONG_MAX` (R187). -/
def execGetLongMax (s : State) : Result := performRead 0x08 s

/-- `GET_CELL i` (R180): the register at `0x10 + i`; above 9 that address is unmapped and reads 0 (R69). -/
def execGetCell (i : BitVec 4) (s : State) : Result := performRead (0x1#4 ++ i) s

/-- `GET_DIGIT k` (R181): the register at `0x20 + k`. -/
def execGetDigit (k : BitVec 3) (s : State) : Result := performRead (0b00100#5 ++ k) s

/-- `GET_HOURS` (R182). -/
def execGetHours (s : State) : Result := performRead 0x28 s

/-- `GET_MINUTES` (R183). -/
def execGetMinutes (s : State) : Result := performRead 0x29 s

/-- `GET_SECONDS` (R184). -/
def execGetSeconds (s : State) : Result := performRead 0x2A s

/-- `GET_FRAMES` (R185). -/
def execGetFrames (s : State) : Result := performRead 0x2B s

end Sys2Proof.Machine
end

