-- ==== Sys2Proof/Machine/HostWrite.lean ====
section
/-! DEFINITION. The host write `WR` and the rows that name one of its words. -/

namespace Sys2Proof.Machine

open Sys2Proof

/-- `WR addr, data` (R170, R172). -/
def execWr (addr : Byte) (data : Word) (s : State) : Result := performWrite addr data s

/-- `ONSYNC` (R173). -/
def execOnsync (s : State) : Result := performWrite 0x00 1 s

/-- `OFFSYNC` (R173). -/
def execOffsync (s : State) : Result := performWrite 0x00 0 s

/-- `SET_SYNC p` (R174). -/
def execSetSync (data : Word) (s : State) : Result := performWrite 0x04 data s

/-- `WR SHORT_MIN, v` (R175). -/
def execWrShortMin (data : Word) (s : State) : Result := performWrite 0x05 data s

/-- `WR SHORT_MAX, v` (R175). -/
def execWrShortMax (data : Word) (s : State) : Result := performWrite 0x06 data s

/-- `WR LONG_MIN, v` (R176). -/
def execWrLongMin (data : Word) (s : State) : Result := performWrite 0x07 data s

/-- `WR LONG_MAX, v` (R176). -/
def execWrLongMax (data : Word) (s : State) : Result := performWrite 0x08 data s

end Sys2Proof.Machine
end

