-- ==== Sys2Proof/Machine/Dispatch.lean ====
section
/-! DEFINITION. One arm per constructor of `Instr`. -/

namespace Sys2Proof.Machine

open Sys2Proof

/-- The meaning of an operation (R4). -/
def exec (i : Instr) (s : State) : Host.Outcome State Fault Refusal :=
  match i with
  | .resetRate sel => Sys2Proof.Machine.execResetRate sel s
  | .resetDur fd => Sys2Proof.Machine.execResetDur fd s
  | .edge now => Sys2Proof.Machine.execEdge now s
  | .wr addr data => Sys2Proof.Machine.execWr addr data s
  | .rd addr => Sys2Proof.Machine.execRd addr s
  | .onsync => Sys2Proof.Machine.execOnsync s
  | .offsync => Sys2Proof.Machine.execOffsync s
  | .setSync data => Sys2Proof.Machine.execSetSync data s
  | .wrShortMin data => Sys2Proof.Machine.execWrShortMin data s
  | .wrShortMax data => Sys2Proof.Machine.execWrShortMax data s
  | .wrLongMin data => Sys2Proof.Machine.execWrLongMin data s
  | .wrLongMax data => Sys2Proof.Machine.execWrLongMax data s
  | .getCtrl => Sys2Proof.Machine.execGetCtrl s
  | .getStatus => Sys2Proof.Machine.execGetStatus s
  | .getRate => Sys2Proof.Machine.execGetRate s
  | .getBitdur => Sys2Proof.Machine.execGetBitdur s
  | .getSync => Sys2Proof.Machine.execGetSync s
  | .getShortMin => Sys2Proof.Machine.execGetShortMin s
  | .getShortMax => Sys2Proof.Machine.execGetShortMax s
  | .getLongMin => Sys2Proof.Machine.execGetLongMin s
  | .getLongMax => Sys2Proof.Machine.execGetLongMax s
  | .getCell n => Sys2Proof.Machine.execGetCell n s
  | .getDigit k => Sys2Proof.Machine.execGetDigit k s
  | .getHours => Sys2Proof.Machine.execGetHours s
  | .getMinutes => Sys2Proof.Machine.execGetMinutes s
  | .getSeconds => Sys2Proof.Machine.execGetSeconds s
  | .getFrames => Sys2Proof.Machine.execGetFrames s

end Sys2Proof.Machine
end

