-- ==== Sys2Proof/Machine/Inputs.lean ====
section
/-! DEFINITION. From what the outside world presents to operations: the decoding of a stimulus word
(R88, R94) and the serialisation of one cycle's pins (R62, R80), and the performance of a list of
operations in order (R27), each for the block of any `Config` (R8). -/

namespace Sys2Proof.Machine

open Sys2Proof

/-- An operation on the block of any `Config` (R4). -/
def operate (c : Config) : Operation → State → Result
  | .resetRate sel, s => resetRateIn c sel s
  | .resetDur fd, s => resetDurIn c fd s
  | .edge now, s => edgeIn c now s
  | .write addr data, s => writeIn c addr data s
  | .read addr, s => readIn c addr s

/-- The meaning of an instruction on the block of any `Config`; `exec` is this at `ltcdec`. -/
def execIn (c : Config) (i : Instr) (s : State) : Result := operate c i.operation s

/-- The reset operation a cycle presents, if any: the `rst` strobe with an illegal `cfg_sel` is
ignored (R94). -/
def PinCycle.resetOp (c : Config) (p : PinCycle) : Option Instr :=
  if p.rst then
    if p.cfgMode then some (.resetDur p.cfgDur)
    else if namesRate c p.cfgSel then some (.resetRate p.cfgSel)
    else none
  else none

/-- The operations of one cycle in their fixed order: a reset operation alone, else `RD`, `EDGE`, `WR` (R62). -/
def PinCycle.operations (c : Config) (p : PinCycle) : List Instr :=
  match p.resetOp c with
  | some i => [i]
  | none =>
    (if p.hRe then [.rd p.hAddr] else []) ++ (if p.edge then [.edge p.timeUs] else []) ++
      (if p.hWe then [.wr p.hAddr p.hWdata] else [])

/-- The operations of one input; an invalid word is none (R94). -/
def Input.operations (c : Config) : Input → List Instr
  | .word w =>
    match decodeIn c w with
    | .ok i => [i]
    | .error _ => []
  | .cycle p => p.operations c

/-- Operations in order, each atomic and with the meaning `run` (R27, R61, R62). -/
def performWith (run : Instr → State → Result) : List Instr → State → Result
  | [], s => .next s
  | i :: rest, s =>
    match run i s with
    | .next t => performWith run rest t
    | .fault r => .fault r
    | .refused r => .refused r

/-- Operations in order on this hardware. -/
def perform : List Instr → State → Result := performWith exec

/-- The inputs presented next, performed in a cycle of their own (R243); with nothing presented the
block waits (R26, R215). DESIGN CHOICE (log entry 18) for an `inputsPerCycle` other than the 1 the spec
gives: the cycle's inputs are performed in queue order, R62's order and its suppression by a reset hold
within each input and not across them, and `h_rdata` keeps the last read's value. -/
def advance (c : Config) (run : Instr → State → Result) (s : State) : Result :=
  performWith run ((s.inputs.take c.inputsPerCycle).flatMap (Input.operations c))
    (s.beginCycle.withInputs (s.inputs.drop c.inputsPerCycle))

/-- A stimulus word presented before everything that waits. -/
def presentWord (w : StimulusWord) (s : State) : State := s.withInputs (.word w :: s.inputs)

end Sys2Proof.Machine
end

