-- ==== Sys2Proof/Machine/Step.lean ====
section
/-! DEFINITION. One step: one clock cycle with the input presented next. -/

namespace Sys2Proof.Machine

open Sys2Proof

/-- One step of the machine performs the input presented next (R26, R27). -/
def step : State → Host.Outcome State Fault Refusal := advance ltcdec exec

/-- One step of the block of any `Config` (R8); `step` is this at `ltcdec`. -/
def stepIn (c : Config) : State → Host.Outcome State Fault Refusal := advance c (execIn c)

/-- The state with the table's word presented next, and nothing else changed (log entry 3). -/
def State.withFetchWord (s : State) (nbits w : Nat) : State :=
  presentWord (BitVec.ofNat 48 (w % 2 ^ nbits)) s

end Sys2Proof.Machine
end

