-- ==== Sys2Proof/Machine/Timecode.lean ====
section
/-! DEFINITION. The formatted-text accessor `timecode_text(style)` (R186), a pure function of the
digits that the host computes; its domain is the four styles (U6). Text is a list of characters. -/

namespace Sys2Proof.Machine

open Sys2Proof

/-- The four separator styles (R87). -/
inductive SeparatorStyle where
  | dot
  | colon
  | colonDot
  | space
deriving DecidableEq, Repr

/-- The number of a style (R87, D14). -/
def SeparatorStyle.code : SeparatorStyle → Nat
  | .dot => 0
  | .colon => 1
  | .colonDot => 2
  | .space => 3

/-- The three separator characters of a style, in order (R87; colonDot by conflict C4). -/
def SeparatorStyle.separators : SeparatorStyle → Char × Char × Char
  | .dot => ('.', '.', '.')
  | .colon => (':', ':', ':')
  | .colonDot => (':', ':', '.')
  | .space => (' ', ' ', ' ')

/-- One decimal digit, 0 to 9, as its character. -/
def decimalChar (n : Nat) : Char := Char.ofNat (48 + n)

/-- `dec(v)`: the decimal numeral of a byte without leading zeros (R186, D14). -/
def decimalText (v : Byte) : List Char :=
  if v.toNat < 10 then [decimalChar v.toNat]
  else if v.toNat < 100 then [decimalChar (v.toNat / 10), decimalChar (v.toNat % 10)]
  else [decimalChar (v.toNat / 100), decimalChar (v.toNat / 10 % 10), decimalChar (v.toNat % 10)]

/-- Two raw bytes of one field, each stringified on its own (R186). -/
def pairText (a b : Byte) : List Char := decimalText a ++ decimalText b

/-- `timecode_text(style)` (R186). -/
def timecodeText (style : SeparatorStyle) (d : Digits) : List Char :=
  pairText d[0] d[1] ++ [style.separators.1] ++
    (pairText d[2] d[3] ++ [style.separators.2.1] ++
      (pairText d[4] d[5] ++ [style.separators.2.2] ++ pairText d[6] d[7]))

end Sys2Proof.Machine
end

