-- ==== Sys2Proof/Machine/Pseudo.lean ====
section
/-! DEFINITION. The pseudo-instructions of R99 that have no row of the opcode table, and their
expansion to operations. They are the assembler's, not the block's. -/

namespace Sys2Proof.Machine

open Sys2Proof

/-- One line of a trace (R98, R99). -/
inductive Pseudo where
  /-- An operation written as it is. -/
  | op (i : Instr)
  /-- `SET_SHORT min, max`: two writes, in that order (R175). -/
  | setShort (min max : Word)
  /-- `SET_LONG min, max`: two writes, in that order (R176). -/
  | setLong (min max : Word)
  /-- `GET_TIMECODE style`: eight reads, then the host computes `timecodeText` (R186). -/
  | getTimecode (style : SeparatorStyle)
  /-- `PULSE dt`: an `EDGE` at `dt` after the latest one (R99). -/
  | pulse (dt : Word)
deriving DecidableEq, Repr

/-- The operations of one line, `t` being the `now` of the latest `EDGE` since the latest reset, or 0 (R99). -/
def Pseudo.expand (t : Word) : Pseudo → List Instr
  | .op i => [i]
  | .setShort min max => [.wrShortMin min, .wrShortMax max]
  | .setLong min max => [.wrLongMin min, .wrLongMax max]
  | .getTimecode _ =>
    [.getDigit 0, .getDigit 1, .getDigit 2, .getDigit 3, .getDigit 4, .getDigit 5, .getDigit 6, .getDigit 7]
  | .pulse dt => [.edge (t + dt)]

/-- `t` after one operation: an `EDGE` sets it and a reset operation clears it (R99). -/
def latestEdge (t : Word) : Instr → Word
  | .edge now => now
  | .resetDur _ => 0
  | .resetRate sel => if legalRate sel then 0 else t
  | _ => t

/-- The operations of a trace, line by line (R99). -/
def expandTrace : Word → List Pseudo → List Instr
  | _, [] => []
  | t, p :: rest => p.expand t ++ expandTrace ((p.expand t).foldl latestEdge t) rest

end Sys2Proof.Machine
end

