-- ==== Sys2Proof/Safety.lean ====
section
/-! DEFINITION. What counts as a safe state: a constructed decoder, and the invariant the claims use. -/

namespace Sys2Proof.Machine

open Sys2Proof

/-- A decoder has been constructed, so every operation has a meaning (R231). -/
def State.Ready (s : State) : Prop := s.constructed = true

/-- `RATE_SEL` is never a reserved code (R29), and `BIT_DUR` is what construction with that code can
have computed: the table's value for a named rate, at most 53687091 for a frame duration (R113, R116). -/
def Block.CalibrationHeld (b : Block) : Prop :=
  b.rateSel.toNat ≤ 5 ∧
  (b.rateSel = 0 → b.bitDur.toNat ≤ 53687091) ∧
  (b.rateSel = 1 → b.bitDur = 521) ∧ (b.rateSel = 2 → b.bitDur = 521) ∧
  (b.rateSel = 3 → b.bitDur = 500) ∧ (b.rateSel = 4 → b.bitDur = 417) ∧
  (b.rateSel = 5 → b.bitDur = 417)

/-- While `sync` is high, the newest event of `OUT` carries the digits as they are read (R157). -/
def State.PulseShowsDigits (s : State) : Prop :=
  s.pins.sync = true → s.out.getLast? = some { digits := s.block.digits }

/-- The invariant every step keeps. Before construction the registers are unspecified (R231). -/
def State.Inv (s : State) : Prop :=
  (s.constructed = true → s.block.CalibrationHeld) ∧ s.PulseShowsDigits

end Sys2Proof.Machine
end

