-- ==== Sys2Proof/Certificates/Slice0/Obligations.lean ====
section
/-! DEFINITION. The statements for the provers. Where a docstring names a decision D<n>, the clause
rests on a choice the spec itself took and marks as its own; where it names a log entry, on a choice
of this model. -/

open Sys2Proof Sys2Proof.Machine

/-! ### Construction -/

/-- R110, with the table of R113 for the five rates. The zero contents, the table and the rounding are
D4, D5, D6, D15, D16. That pins and pending inputs are kept is the model's reading (log entry 8), and
so is performing the term with an illegal selector (log entry 9). -/
def Obligations.ResetRateConstructsForNamedRate : Prop :=
  (∀ (sel : BitVec 3) (bitDur : Nat) (s : State),
    (sel, bitDur) ∈ [(1, 521), (2, 521), (3, 500), (4, 417), (5, 417)] →
    exec (.resetRate sel) s = .next
      { constructed := true
        block :=
          { fb := 0, half := .idle, tPrev := 0, rateSel := sel, bitDur := BitVec.ofNat 32 bitDur
            shortMin := BitVec.ofNat 32 ((bitDur + 1) / 3)
            shortMax := BitVec.ofNat 32 ((2 * bitDur + 1) / 3)
            longMin := BitVec.ofNat 32 ((2 * bitDur + 1) / 3 + 1)
            longMax := BitVec.ofNat 32 bitDur
            syncPattern := 0xBFFC, syncEn := false, digits := #v[0, 0, 0, 0, 0, 0, 0, 0] }
        out := [], pins := s.pins, inputs := s.inputs }) ∧
  (∀ (sel : BitVec 3) (s : State), sel = 0 ∨ sel = 6 ∨ sel = 7 → exec (.resetRate sel) s = .next s)

/-- R111. The zero contents and the rounding are D4, D5, D15, D16, D24. That pins and pending inputs are
kept is the model's reading (log entry 8). -/
def Obligations.ResetDurConstructsForDuration : Prop :=
  ∀ (fd : Word) (bitDur : Nat) (s : State), bitDur = (fd.toNat + 40) / 80 →
    exec (.resetDur fd) s = .next
      { constructed := true
        block :=
          { fb := 0, half := .idle, tPrev := 0, rateSel := 0, bitDur := BitVec.ofNat 32 bitDur
            shortMin := BitVec.ofNat 32 ((bitDur + 1) / 3)
            shortMax := BitVec.ofNat 32 ((2 * bitDur + 1) / 3)
            longMin := BitVec.ofNat 32 ((2 * bitDur + 1) / 3 + 1)
            longMax := BitVec.ofNat 32 bitDur
            syncPattern := 0xBFFC, syncEn := false, digits := #v[0, 0, 0, 0, 0, 0, 0, 0] }
        out := [], pins := s.pins, inputs := s.inputs }

/-- The consequences the spec derives in R115 and the bound of R116 (D24), after either reset operation. -/
def Obligations.ConstructedWindowsAreAdjacent : Prop :=
  ∀ (i : Instr) (s t : State),
    (∃ sel : BitVec 3, i = .resetRate sel ∧ 1 ≤ sel.toNat ∧ sel.toNat ≤ 5) ∨ (∃ fd, i = .resetDur fd) →
    exec i s = .next t →
    t.block.shortMin ≤ t.block.shortMax ∧
    t.block.shortMax.toNat + 1 = t.block.longMin.toNat ∧
    t.block.longMax = t.block.bitDur ∧
    (2 ≤ t.block.bitDur.toNat → t.block.longMin ≤ t.block.longMax) ∧
    t.block.bitDur.toNat ≤ 53687091

/-- The rounding of R113 as the spec decided it (D5): `BIT_DUR` is `fd / 80` rounded to nearest, a tie up. -/
def Obligations.BitDurationIsNearestInteger : Prop :=
  ∀ (fd : Word) (s t : State), exec (.resetDur fd) s = .next t →
    80 * t.block.bitDur.toNat ≤ fd.toNat + 40 ∧ fd.toNat + 40 < 80 * t.block.bitDur.toNat + 80

/-- The three rows of R114's table (D5): the bounds by the remainder of `BIT_DUR` modulo 3. -/
def Obligations.WindowBoundsFollowThirds : Prop :=
  ∀ (fd : Word) (s t : State) (k r : Nat), exec (.resetDur fd) s = .next t →
    t.block.bitDur.toNat = 3 * k + r → r < 3 →
    t.block.longMax.toNat = 3 * k + r ∧
    (r = 0 → t.block.shortMin.toNat = k ∧ t.block.shortMax.toNat = 2 * k ∧
      t.block.longMin.toNat = 2 * k + 1) ∧
    (r = 1 → t.block.shortMin.toNat = k ∧ t.block.shortMax.toNat = 2 * k + 1 ∧
      t.block.longMin.toNat = 2 * k + 2) ∧
    (r = 2 → t.block.shortMin.toNat = k + 1 ∧ t.block.shortMax.toNat = 2 * k + 1 ∧
      t.block.longMin.toNat = 2 * k + 2)

/-- The model's choice of `State.reset` (log entry 1): it is what `RESET_RATE 3` leaves, from any
unconstructed machine with nothing pending, pins and inputs being kept (log entry 8). -/
def Obligations.ResetStateIsTwentyFiveFps : Prop :=
  ∀ (b : Block) (out : List SyncEvent),
    exec (.resetRate 3) { State.reset with constructed := false, block := b, out := out } =
      .next State.reset

/-! ### Edges -/

/-- R134: a first short pulse only sets `HALF` (and `T_PREV`, R131). -/
def Obligations.ShortInIdleStartsHalfBit : Prop :=
  ∀ (now : Word) (s : State), s.Ready → s.block.half = .idle →
    s.block.shortMin ≤ now - s.block.tPrev → now - s.block.tPrev ≤ s.block.shortMax →
    exec (.edge now) s = .next
      { s with block := { s.block with tPrev := now, half := .halfBitPending } }

/-- R137: a long pulse while a half bit is pending resets to `Idle` and does nothing else (but `T_PREV`). -/
def Obligations.LongWhilePendingOnlyResets : Prop :=
  ∀ (now : Word) (s : State), s.Ready → s.block.half = .halfBitPending →
    ¬ (s.block.shortMin ≤ now - s.block.tPrev ∧ now - s.block.tPrev ≤ s.block.shortMax) →
    s.block.longMin ≤ now - s.block.tPrev → now - s.block.tPrev ≤ s.block.longMax →
    exec (.edge now) s = .next { s with block := { s.block with tPrev := now, half := .idle } }

/-- R138: an interval in neither window changes `T_PREV` and nothing else, in both decoder states. -/
def Obligations.UnrecognizedIntervalOnlyMovesTime : Prop :=
  ∀ (now : Word) (s : State), s.Ready →
    ¬ (s.block.shortMin ≤ now - s.block.tPrev ∧ now - s.block.tPrev ≤ s.block.shortMax) →
    ¬ (s.block.longMin ≤ now - s.block.tPrev ∧ now - s.block.tPrev ≤ s.block.longMax) →
    exec (.edge now) s = .next { s with block := { s.block with tPrev := now } }

/-- R138 over a whole run of edges: however many intervals are unrecognized, only `T_PREV` moves, and a
pending half bit stays pending. -/
def Obligations.NoiseRunOnlyMovesTime : Prop :=
  ∀ (nows : List Word) (s : State), s.Ready →
    List.IsChain
      (fun before now =>
        ¬ (s.block.shortMin ≤ now - before ∧ now - before ≤ s.block.shortMax) ∧
        ¬ (s.block.longMin ≤ now - before ∧ now - before ≤ s.block.longMax))
      (s.block.tPrev :: nows) →
    perform (nows.map .edge) s =
      .next { s with block := { s.block with tPrev := nows.getLastD s.block.tPrev } }

/-- R135, R136 and R150: what an edge that completes a bit does, whole. A second short pulse emits 1
and a long pulse in `Idle` emits 0 (short first where the windows overlap, D9); the new bit enters at
`FB[79]`; on equality of `FB[79:64]` with the pattern the eight digits take cells 2 to 9, and with
`SYNC_EN = 1` there is one event and the pulse (R156). That the event carries the digits is the model's
choice, which R40 and R205 allow (log entry 6). -/
def Obligations.EdgeEmitsShiftsComparesExtracts : Prop :=
  ∀ (now : Word) (bit : BitVec 1) (fb : BitVec 80) (d : Vector (BitVec 8) 8) (s : State), s.Ready →
    (s.block.half = .halfBitPending ∧ bit = 1 ∧
        (s.block.shortMin ≤ now - s.block.tPrev ∧ now - s.block.tPrev ≤ s.block.shortMax)) ∨
      (s.block.half = .idle ∧ bit = 0 ∧
        ¬ (s.block.shortMin ≤ now - s.block.tPrev ∧ now - s.block.tPrev ≤ s.block.shortMax) ∧
        s.block.longMin ≤ now - s.block.tPrev ∧ now - s.block.tPrev ≤ s.block.longMax) →
    fb = bit ++ s.block.fb.extractLsb' 1 79 →
    d = #v[fb.extractLsb' 56 8, fb.extractLsb' 48 8, fb.extractLsb' 40 8, fb.extractLsb' 32 8,
           fb.extractLsb' 24 8, fb.extractLsb' 16 8, fb.extractLsb' 8 8, fb.extractLsb' 0 8] →
    (fb.extractLsb' 64 16 ≠ s.block.syncPattern →
      exec (.edge now) s = .next
        { s with block := { s.block with tPrev := now, half := .idle, fb := fb } }) ∧
    (fb.extractLsb' 64 16 = s.block.syncPattern → s.block.syncEn = false →
      exec (.edge now) s = .next
        { s with block := { s.block with tPrev := now, half := .idle, fb := fb, digits := d } }) ∧
    (fb.extractLsb' 64 16 = s.block.syncPattern → s.block.syncEn = true →
      exec (.edge now) s = .next
        { s with
          block := { s.block with tPrev := now, half := .idle, fb := fb, digits := d }
          out := s.out ++ [{ digits := d }]
          pins := { s.pins with sync := true } })

/-- R152: the same shift said cell by cell, for an edge that emits `bit`. -/
def Obligations.ShiftMovesBitsCellByCell : Prop :=
  ∀ (now : Word) (bit : BitVec 1) (s t : State), s.Ready →
    (s.block.half = .halfBitPending ∧ bit = 1 ∧
        (s.block.shortMin ≤ now - s.block.tPrev ∧ now - s.block.tPrev ≤ s.block.shortMax)) ∨
      (s.block.half = .idle ∧ bit = 0 ∧
        ¬ (s.block.shortMin ≤ now - s.block.tPrev ∧ now - s.block.tPrev ≤ s.block.shortMax) ∧
        s.block.longMin ≤ now - s.block.tPrev ∧ now - s.block.tPrev ≤ s.block.longMax) →
    exec (.edge now) s = .next t →
    cellOf t.block.fb 0 = bit ++ (cellOf s.block.fb 0).extractLsb' 1 7 ∧
    ∀ i : Fin 9,
      cellOf t.block.fb i.succ =
        (cellOf s.block.fb i.castSucc).extractLsb' 0 1 ++ (cellOf s.block.fb i.succ).extractLsb' 1 7

/-- The frame of `EDGE` (R130, R72): what the line can never change. -/
def Obligations.EdgeLeavesCalibrationAlone : Prop :=
  ∀ (now : Word) (s t : State), exec (.edge now) s = .next t →
    t.constructed = s.constructed ∧ t.inputs = s.inputs ∧ t.pins.hRdata = s.pins.hRdata ∧
    t.block.tPrev = now ∧ t.block.rateSel = s.block.rateSel ∧ t.block.bitDur = s.block.bitDur ∧
    t.block.shortMin = s.block.shortMin ∧ t.block.shortMax = s.block.shortMax ∧
    t.block.longMin = s.block.longMin ∧ t.block.longMax = s.block.longMax ∧
    t.block.syncPattern = s.block.syncPattern ∧ t.block.syncEn = s.block.syncEn

/-- R155 over all operations: the digits change at a sync event, all eight from cells 2 to 9 of the
shifted register, and at a reset operation, and at no other time. -/
def Obligations.DigitsChangeOnlyAtMatchOrReset : Prop :=
  ∀ (i : Instr) (s t : State), exec i s = .next t → t.block.digits ≠ s.block.digits →
    (∃ sel, i = .resetRate sel) ∨ (∃ fd, i = .resetDur fd) ∨
    (∃ now, i = .edge now ∧ t.block.fb.extractLsb' 64 16 = s.block.syncPattern ∧
      (∃ bit : BitVec 1, t.block.fb = bit ++ s.block.fb.extractLsb' 1 79) ∧
      ∀ k : Fin 8, t.block.digits[k] = t.block.fb.extractLsb' (56 - 8 * k.val) 8)

/-- R156 with D16: an edge gives no output, or exactly one event and the pulse, and the latter only with
`SYNC_EN = 1` and a match; the event shows the new digits (R157), which it carries by the model's choice
(log entry 6). -/
def Obligations.OneSyncEventPerMatchAtMost : Prop :=
  ∀ (now : Word) (s t : State), exec (.edge now) s = .next t →
    (t.out = s.out ∧ t.pins = s.pins) ∨
    (s.block.syncEn = true ∧ t.block.fb.extractLsb' 64 16 = s.block.syncPattern ∧
      t.out = s.out ++ [{ digits := t.block.digits }] ∧ t.pins = { s.pins with sync := true })

/-- The spec's derivation in R154: with the default pattern, an edge right after a match is no match. -/
def Obligations.DefaultPatternNeverMatchesTwiceRunning : Prop :=
  ∀ (now : Word) (s t : State), s.block.syncPattern = 0xBFFC →
    s.block.fb.extractLsb' 64 16 = s.block.syncPattern → exec (.edge now) s = .next t →
    t.block.digits = s.block.digits ∧ t.out = s.out ∧ t.pins = s.pins

/-- R32: `SYNC_EN` gates only the output; the registers an edge leaves do not depend on it. -/
def Obligations.SyncEnableGatesOnlyOutput : Prop :=
  ∀ (now : Word) (e : Bool) (s t u : State), exec (.edge now) s = .next t →
    exec (.edge now) { s with block := { s.block with syncEn := e } } = .next u →
    u.block = { t.block with syncEn := e }

/-- R82, R151: a stream of well-timed pulses is decoded. Each bit is one interval in the long window
(0, `inl`) or two intervals in the short window (1, `inr`); the edges stand at the cumulative times of
`PULSE` (R99). Started in `Idle`, the block ends in `Idle` with the bit that came `n` bits before the
newest at `FB[79-n]`. -/
def Obligations.LineCodeFillsFrameBuffer : Prop :=
  ∀ (bits : List (Word ⊕ (Word × Word))) (s : State), s.Ready → s.block.half = .idle →
    (∀ d, Sum.inl d ∈ bits →
      ¬ (s.block.shortMin ≤ d ∧ d ≤ s.block.shortMax) ∧ s.block.longMin ≤ d ∧ d ≤ s.block.longMax) →
    (∀ a b, Sum.inr (a, b) ∈ bits →
      (s.block.shortMin ≤ a ∧ a ≤ s.block.shortMax) ∧ s.block.shortMin ≤ b ∧ b ≤ s.block.shortMax) →
    ∃ t : State,
      perform (expandTrace s.block.tPrev
        (bits.flatMap (Sum.elim (fun d => [.pulse d]) (fun p => [.pulse p.1, .pulse p.2])))) s =
        .next t ∧
      t.block.half = .idle ∧
      ∀ (n : Nat) (x : Word ⊕ (Word × Word)), n < 80 → bits.reverse[n]? = some x →
        t.block.fb.getLsbD (79 - n) = x.isRight

/-- R83, R155: a frame of 64 payload bits and then the sync word, in arrival order, leaves the payload
in the digits: `DIGIT[7]` first, each byte from bit 0 up, then the pattern from bit 0 up. -/
def Obligations.FrameLeavesItsPayloadInDigits : Prop :=
  ∀ (bits : List (Word ⊕ (Word × Word))) (s : State), s.Ready → s.block.half = .idle →
    bits.length = 80 →
    (∀ d, Sum.inl d ∈ bits →
      ¬ (s.block.shortMin ≤ d ∧ d ≤ s.block.shortMax) ∧ s.block.longMin ≤ d ∧ d ≤ s.block.longMax) →
    (∀ a b, Sum.inr (a, b) ∈ bits →
      (s.block.shortMin ≤ a ∧ a ≤ s.block.shortMax) ∧ s.block.shortMin ≤ b ∧ b ≤ s.block.shortMax) →
    (∀ (j : Nat) (x : Word ⊕ (Word × Word)), j < 16 → bits[64 + j]? = some x →
      x.isRight = s.block.syncPattern.getLsbD j) →
    ∃ t : State,
      perform (expandTrace s.block.tPrev
        (bits.flatMap (Sum.elim (fun d => [.pulse d]) (fun p => [.pulse p.1, .pulse p.2])))) s =
        .next t ∧
      ∀ (k : Fin 8) (j : Nat) (x : Word ⊕ (Word × Word)), j < 8 → bits[8 * (7 - k.val) + j]? = some x →
        t.block.digits[k].getLsbD j = x.isRight

/-! ### Host writes -/

/-- R170: each writable register takes its bits of the data, and a write of any other address changes
nothing. The addresses and the narrowing are D17, D18, D25. -/
def Obligations.WriteTakesNamedRegister : Prop :=
  ∀ (data : Word) (s : State), s.Ready →
    exec (.wr 0x00 data) s = .next { s with block := { s.block with syncEn := data.getLsbD 0 } } ∧
    exec (.wr 0x04 data) s =
      .next { s with block := { s.block with syncPattern := data.extractLsb' 0 16 } } ∧
    exec (.wr 0x05 data) s = .next { s with block := { s.block with shortMin := data } } ∧
    exec (.wr 0x06 data) s = .next { s with block := { s.block with shortMax := data } } ∧
    exec (.wr 0x07 data) s = .next { s with block := { s.block with longMin := data } } ∧
    exec (.wr 0x08 data) s = .next { s with block := { s.block with longMax := data } } ∧
    ∀ addr : Byte, addr ∉ [0x00, 0x04, 0x05, 0x06, 0x07, 0x08] → exec (.wr addr data) s = .next s

/-- R174, R175, R176: the setters' rows. -/
def Obligations.SetterRowsTakeTheirRegister : Prop :=
  ∀ (data : Word) (s : State), s.Ready →
    exec (.setSync data) s =
      .next { s with block := { s.block with syncPattern := data.extractLsb' 0 16 } } ∧
    exec (.wrShortMin data) s = .next { s with block := { s.block with shortMin := data } } ∧
    exec (.wrShortMax data) s = .next { s with block := { s.block with shortMax := data } } ∧
    exec (.wrLongMin data) s = .next { s with block := { s.block with longMin := data } } ∧
    exec (.wrLongMax data) s = .next { s with block := { s.block with longMax := data } }

/-- R173 as the spec decided it (D16): registering and unregistering set the enable bit and nothing else. -/
def Obligations.CallbackRowsSetTheEnableBit : Prop :=
  ∀ s : State, s.Ready →
    exec .onsync s = .next { s with block := { s.block with syncEn := true } } ∧
    exec .offsync s = .next { s with block := { s.block with syncEn := false } }

/-- The frame of every row that is a `WR` (R67, R170): the decoding state, the outputs and every register
but the addressed one keep their values. -/
def Obligations.WriteTouchesOnlyItsRegister : Prop :=
  ∀ (i : Instr) (addr : Byte) (data : Word) (s t : State), i.base = .wr addr data →
    exec i s = .next t →
    t.constructed = s.constructed ∧ t.out = s.out ∧ t.pins = s.pins ∧ t.inputs = s.inputs ∧
    t.block.fb = s.block.fb ∧ t.block.half = s.block.half ∧ t.block.tPrev = s.block.tPrev ∧
    t.block.digits = s.block.digits ∧ t.block.rateSel = s.block.rateSel ∧
    t.block.bitDur = s.block.bitDur ∧
    (addr ≠ 0x00 → t.block.syncEn = s.block.syncEn) ∧
    (addr ≠ 0x04 → t.block.syncPattern = s.block.syncPattern) ∧
    (addr ≠ 0x05 → t.block.shortMin = s.block.shortMin) ∧
    (addr ≠ 0x06 → t.block.shortMax = s.block.shortMax) ∧
    (addr ≠ 0x07 → t.block.longMin = s.block.longMin) ∧
    (addr ≠ 0x08 → t.block.longMax = s.block.longMax)

/-- R99: `SET_SHORT` and `SET_LONG` are two writes, which together set their window and nothing else. -/
def Obligations.WindowSettersSetBothBounds : Prop :=
  ∀ (min max now : Word) (s : State), s.Ready →
    perform ((Pseudo.setShort min max).expand now) s =
      .next { s with block := { s.block with shortMin := min, shortMax := max } } ∧
    perform ((Pseudo.setLong min max).expand now) s =
      .next { s with block := { s.block with longMin := min, longMax := max } }

/-! ### Host reads -/

/-- R171: what `RD` returns at every address. The addresses, the zero of an unmapped one and the pair
function are D13, D17, D18, D25. -/
def Obligations.ReadReturnsAddressedRegister : Prop :=
  ∀ (addr : Byte) (v : Word) (s : State), s.Ready →
    (addr, v) ∈
      ([(0x00, BitVec.ofNat 32 s.block.syncEn.toNat),
       (0x01, if s.block.half = .halfBitPending then 1 else 0),
       (0x02, BitVec.ofNat 32 s.block.rateSel.toNat), (0x03, s.block.bitDur),
       (0x04, BitVec.ofNat 32 s.block.syncPattern.toNat), (0x05, s.block.shortMin),
       (0x06, s.block.shortMax), (0x07, s.block.longMin), (0x08, s.block.longMax),
       (0x28, BitVec.ofNat 32 (10 * s.block.digits[0].toNat + s.block.digits[1].toNat)),
       (0x29, BitVec.ofNat 32 (10 * s.block.digits[2].toNat + s.block.digits[3].toNat)),
       (0x2A, BitVec.ofNat 32 (10 * s.block.digits[4].toNat + s.block.digits[5].toNat)),
       (0x2B, BitVec.ofNat 32 (10 * s.block.digits[6].toNat + s.block.digits[7].toNat))] :
        List (Byte × Word)) ∨
    (∃ i : Fin 10, addr = BitVec.ofNat 8 (0x10 + i.val) ∧
      v = BitVec.ofNat 32 (s.block.fb.extractLsb' (72 - 8 * i.val) 8).toNat) ∨
    (∃ k : Fin 8, addr = BitVec.ofNat 8 (0x20 + k.val) ∧ v = BitVec.ofNat 32 s.block.digits[k].toNat) ∨
    ((0x09 ≤ addr ∧ addr ≤ 0x0F ∨ 0x1A ≤ addr ∧ addr ≤ 0x1F ∨ 0x2C ≤ addr) ∧ v = 0) →
    exec (.rd addr) s = .next { s with pins := { s.pins with hRdata := some v } }

/-- R177 to R185, R187: what each accessor's row returns; a cell index above 9 reads an unmapped address
(R69, D18) by the model's reading (log entry 15). -/
def Obligations.AccessorRowsReturnTheirRegister : Prop :=
  ∀ (i : Instr) (v : Word) (s : State), s.Ready →
    (i, v) ∈
      ([(.getCtrl, BitVec.ofNat 32 s.block.syncEn.toNat),
       (.getStatus, if s.block.half = .halfBitPending then 1 else 0),
       (.getRate, BitVec.ofNat 32 s.block.rateSel.toNat), (.getBitdur, s.block.bitDur),
       (.getSync, BitVec.ofNat 32 s.block.syncPattern.toNat), (.getShortMin, s.block.shortMin),
       (.getShortMax, s.block.shortMax), (.getLongMin, s.block.longMin), (.getLongMax, s.block.longMax),
       (.getHours, BitVec.ofNat 32 (10 * s.block.digits[0].toNat + s.block.digits[1].toNat)),
       (.getMinutes, BitVec.ofNat 32 (10 * s.block.digits[2].toNat + s.block.digits[3].toNat)),
       (.getSeconds, BitVec.ofNat 32 (10 * s.block.digits[4].toNat + s.block.digits[5].toNat)),
       (.getFrames, BitVec.ofNat 32 (10 * s.block.digits[6].toNat + s.block.digits[7].toNat))] :
        List (Instr × Word)) ∨
    (∃ n : BitVec 4, i = .getCell n ∧
      v = if n ≤ 9 then BitVec.ofNat 32 (s.block.fb.extractLsb' (72 - 8 * n.toNat) 8).toNat else 0) ∨
    (∃ k : BitVec 3, i = .getDigit k ∧ v = BitVec.ofNat 32 s.block.digits[k.toNat].toNat) →
    exec i s = .next { s with pins := { s.pins with hRdata := some v } }

/-- R67: a read changes nothing but the read data, and reading again returns the same value. -/
def Obligations.ReadChangesNothingAndRepeats : Prop :=
  ∀ (i : Instr) (addr : Byte) (s t : State), i.base = .rd addr → exec i s = .next t →
    t.constructed = s.constructed ∧ t.block = s.block ∧ t.out = s.out ∧ t.inputs = s.inputs ∧
    t.pins.sync = s.pins.sync ∧ t.pins.hRdata.isSome ∧ exec i t = .next t

/-- R187 with the narrowing of R172 (D17, D25): a written register reads back the bits it implements. -/
def Obligations.ReadBackGivesWrittenBits : Prop :=
  ∀ (addr : Byte) (data : Word) (s t u : State), exec (.wr addr data) s = .next t →
    exec (.rd addr) t = .next u →
    (addr = 0x00 → u.pins.hRdata = some (data &&& 1)) ∧
    (addr = 0x04 → u.pins.hRdata = some (data &&& 0xFFFF)) ∧
    (0x05 ≤ addr → addr ≤ 0x08 → u.pins.hRdata = some data)

/-- R39: `T_PREV` is hidden; no read returns anything that depends on it. -/
def Obligations.NoReadRevealsPreviousEdge : Prop :=
  ∀ (i : Instr) (addr : Byte) (x : Word) (s t u : State), i.base = .rd addr → exec i s = .next t →
    exec i { s with block := { s.block with tPrev := x } } = .next u →
    u.pins = t.pins ∧ u.block = { t.block with tPrev := x }

/-! ### The whole machine -/

/-- R200: with a decoder constructed, every operation of every row completes. -/
def Obligations.EveryOperationCompletes : Prop :=
  ∀ (i : Instr) (s : State), s.Ready → ∃ t, exec i s = .next t ∧ t.Ready

/-- R231 (D15): before the first reset operation every other operation is refused, each one by name
(log entry 2). -/
def Obligations.UnconstructedOperationsAreRefused : Prop :=
  ∀ (i : Instr) (s : State), s.constructed = false → (∀ sel, i ≠ .resetRate sel) →
    (∀ fd, i ≠ .resetDur fd) → exec i s = .refused .notConstructed

/-- R99, R100: a row that names a `WR` or `RD` word has that word and that operation's effect. -/
def Obligations.RowsActAsTheirBaseOperation : Prop :=
  ∀ (i : Instr) (s : State), exec i s = exec i.base s

/-- R72, R241 (single writer): the host changes no cell, no digit, no `HALF`, no `T_PREV` and gives no
event, except by constructing anew. -/
def Obligations.OnlyEdgesAndResetsDecode : Prop :=
  ∀ (i : Instr) (s t : State), exec i s = .next t → (∀ now, i ≠ .edge now) →
    (∀ sel, i ≠ .resetRate sel) → (∀ fd, i ≠ .resetDur fd) →
    t.block.fb = s.block.fb ∧ t.block.half = s.block.half ∧ t.block.tPrev = s.block.tPrev ∧
    t.block.digits = s.block.digits ∧ t.out = s.out ∧ t.pins.sync = s.pins.sync

/-- R29, R112: `RATE_SEL` and `BIT_DUR` are written by a reset operation and never otherwise. -/
def Obligations.OnlyResetsWriteConstructionRecord : Prop :=
  ∀ (i : Instr) (s t : State), exec i s = .next t → (∀ sel, i ≠ .resetRate sel) →
    (∀ fd, i ≠ .resetDur fd) → t.block.rateSel = s.block.rateSel ∧ t.block.bitDur = s.block.bitDur

/-- The reset state, the model's choice of construction (log entry 1), meets the invariant. -/
def Obligations.ResetMeetsInvariant : Prop := State.reset.Inv ∧ State.reset.Ready

/-- Every step keeps the invariant: `RATE_SEL` is never a reserved code and `BIT_DUR` stays what
construction computed (R29, R112, R113), and a high `sync` shows the digits of the newest event (R157);
that the event carries them and that the pins last one cycle is the model's (log entries 5 and 6). -/
def Obligations.StepKeepsInvariant : Prop :=
  ∀ s t : State, s.Inv → step s = .next t → t.Inv

/-- R200 for steps: once constructed, the machine never stops and stays constructed, whatever is presented. -/
def Obligations.ConstructedMachineNeverStops : Prop :=
  ∀ s : State, s.Ready → ∃ t, step s = .next t ∧ t.Ready

/-! ### Inputs -/

/-- A step runs the decoded instruction: the word presented next, in a cycle that starts with the outputs
low (R27, R80), and the rest of the inputs still to come (log entries 3 and 5). -/
def Obligations.StepRunsDecodedWord : Prop :=
  ∀ (w : StimulusWord) (i : Instr) (rest : List Input) (s : State),
    s.inputs = .word w :: rest → decode w = .ok i →
    step s = exec i { s with pins := { hRdata := none, sync := false }, inputs := rest }

/-- R94 (D19): an invalid word changes no state, returns no data and gives no pulse, and the trace goes
on; with nothing presented the block waits (R26, R215). That the inputs stand in a queue and that both
pins are low in such a cycle, `h_rdata` carrying none, is the model's (log entries 3 and 5; R80 leaves
`h_rdata` open outside a read's cycle). -/
def Obligations.StepIgnoresInvalidWordAndWaits : Prop :=
  (∀ (w : StimulusWord) (e : InvalidWord) (rest : List Input) (s : State),
    s.inputs = .word w :: rest → decode w = .error e →
    step s = .next { s with pins := { hRdata := none, sync := false }, inputs := rest }) ∧
  (∀ s : State, s.inputs = [] → step s = .next { s with pins := { hRdata := none, sync := false } })

/-- R62 (D2): in a cycle without a reset, the read returns the value before the cycle's edge, the edge
uses the registers before the cycle's write, and the write comes last. That the cycle stands in a
queue of inputs and that `h_rdata` carries none in a cycle without `h_re` is the model's (log entries 3
and 5). -/
def Obligations.CycleOrderIsReadEdgeWrite : Prop :=
  ∀ (p : PinCycle) (rest : List Input) (s u : State), s.Ready → p.rst = false →
    s.inputs = .cycle p :: rest →
    (p.edge = true →
      exec (.edge p.timeUs) { s with pins := { hRdata := none, sync := false }, inputs := rest } =
        .next u) →
    (p.edge = false → u = { s with pins := { hRdata := none, sync := false }, inputs := rest }) →
    step s = .next
      { u with
        block := if p.hWe then hostWrite u.block p.hAddr p.hWdata else u.block
        pins :=
          { hRdata := if p.hRe then some (hostRead ltcdec s.block p.hAddr) else none
            sync := u.pins.sync } }

/-- R62 (D2): a reset operation in a cycle suppresses everything else presented in it; a `rst` strobe
with an illegal `cfg_sel` is ignored (R94, D19), so the cycle is performed as without it (log entry 7).
That the cycle stands in a queue of inputs and starts with `h_rdata` none and `sync` low is the model's
(log entries 3 and 5). -/
def Obligations.ResetCycleSuppressesTheRest : Prop :=
  ∀ (p : PinCycle) (rest : List Input) (s : State), p.rst = true → s.inputs = .cycle p :: rest →
    (p.cfgMode = true →
      step s = exec (.resetDur p.cfgDur)
        { s with pins := { hRdata := none, sync := false }, inputs := rest }) ∧
    (p.cfgMode = false → 1 ≤ p.cfgSel.toNat → p.cfgSel.toNat ≤ 5 →
      step s = exec (.resetRate p.cfgSel)
        { s with pins := { hRdata := none, sync := false }, inputs := rest }) ∧
    (p.cfgMode = false → p.cfgSel = 0 ∨ p.cfgSel = 6 ∨ p.cfgSel = 7 →
      step s = step { s with inputs := .cycle { p with rst := false } :: rest })

/-! ### Encoding -/

/-- Decoding the encoding of a well-formed instruction gives it back, for every row and every operand. -/
def Obligations.DecodeInvertsEncode : Prop := ∀ i : Instr, i.wf = true → decode (encode i) = .ok i

/-- Every valid word is the encoding of the one well-formed instruction it decodes to: no bit of a word is
dropped, and no two words decode alike. -/
def Obligations.EncodeInvertsDecode : Prop :=
  ∀ (w : StimulusWord) (i : Instr), decode w = .ok i → i.wf = true ∧ encode i = w

/-- The five `match`/`mask` pairs of R92 with the operand assembly of R93 (D19). -/
def Obligations.BaseDecodingMatchesMaskTable : Prop :=
  ∀ w : StimulusWord,
    (∀ sel : BitVec 3, decodeBase w = .ok (.resetRate sel) ↔
      w &&& 0xFFFFFFFFFFF8 = 0x010000000000 ∧ sel = w.extractLsb' 0 3 ∧ sel ∈ [1, 2, 3, 4, 5]) ∧
    (∀ fd : Word, decodeBase w = .ok (.resetDur fd) ↔
      w &&& 0xFFFF00000000 = 0x020000000000 ∧ fd = w.extractLsb' 0 32) ∧
    (∀ now : Word, decodeBase w = .ok (.edge now) ↔
      w &&& 0xFFFF00000000 = 0x030000000000 ∧ now = w.extractLsb' 0 32) ∧
    (∀ (addr : Byte) (data : Word), decodeBase w = .ok (.wr addr data) ↔
      w &&& 0xFF0000000000 = 0x040000000000 ∧ addr = w.extractLsb' 32 8 ∧ data = w.extractLsb' 0 32) ∧
    (∀ addr : Byte, decodeBase w = .ok (.rd addr) ↔
      w &&& 0xFF00FFFFFFFF = 0x050000000000 ∧ addr = w.extractLsb' 32 8)

/-- R94 (D19): exactly which words are invalid. -/
def Obligations.InvalidWordsAreExactlyThose : Prop :=
  ∀ w : StimulusWord,
    (∃ e, decode w = .error e) ↔
      (w.extractLsb' 40 8).toNat ∉ [1, 2, 3, 4, 5] ∨
      (w.extractLsb' 40 8).toNat ∈ [1, 2, 3] ∧ w.extractLsb' 32 8 ≠ 0 ∨
      (w.extractLsb' 40 8).toNat = 1 ∧ w.extractLsb' 3 29 ≠ 0 ∨
      (w.extractLsb' 40 8).toNat = 1 ∧ (w.extractLsb' 0 3).toNat ∈ [0, 6, 7] ∨
      (w.extractLsb' 40 8).toNat = 5 ∧ w.extractLsb' 0 32 ≠ 0

/-- The example words the spec writes out for R110, R111, R130, R170, R171, R173 to R176, each under its
most specific row's name (log entry 4). -/
def Obligations.SpecExampleWordsDecode : Prop :=
  decode 0x010000000003 = .ok (.resetRate 3) ∧ decode 0x020000009C40 = .ok (.resetDur 40000) ∧
  decode 0x0300000005DC = .ok (.edge 1500) ∧ decode 0x040600000154 = .ok (.wrShortMax 340) ∧
  decode 0x050300000000 = .ok .getBitdur ∧ decode 0x040000000001 = .ok .onsync ∧
  decode 0x040400003FFD = .ok (.setSync 0x3FFD) ∧ decode 0x040500000096 = .ok (.wrShortMin 150) ∧
  decode 0x040700000155 = .ok (.wrLongMin 341) ∧ decode 0x040800000230 = .ok (.wrLongMax 560) ∧
  decode 0x051000000000 = .ok (.getCell 0) ∧ decode 0x060000000000 = .error .unassignedOp ∧
  decode 0x010000000006 = .error .illegalRate ∧ decode 0x0301000001F4 = .error .nonzeroAddr ∧
  decode 0x050300000001 = .error .nonzeroReserved ∧ decode 0x01000000000B = .error .nonzeroReserved ∧
  decode 0x0403000003E7 = .ok (.wr 0x03 999) ∧ decode 0x051A00000000 = .ok (.rd 0x1A)

/-! ### Formatted text -/

/-- R186 (D14): 11 characters when every digit is 0 to 9, at most 27 otherwise. -/
def Obligations.TimecodeTextHasTemplateLength : Prop :=
  ∀ (style : SeparatorStyle) (d : Vector (BitVec 8) 8),
    (timecodeText style d).length ≤ 27 ∧
    ((∀ k : Fin 8, d[k].toNat ≤ 9) → (timecodeText style d).length = 11)

/-- R186's worked example for the digits 1 to 8 in the four styles (D14, conflict C4). -/
def Obligations.TimecodeTextOfWorkedExample : Prop :=
  timecodeText .dot #v[1, 2, 3, 4, 5, 6, 7, 8] = "12.34.56.78".toList ∧
  timecodeText .colon #v[1, 2, 3, 4, 5, 6, 7, 8] = "12:34:56:78".toList ∧
  timecodeText .colonDot #v[1, 2, 3, 4, 5, 6, 7, 8] = "12:34:56.78".toList ∧
  timecodeText .space #v[1, 2, 3, 4, 5, 6, 7, 8] = "12 34 56 78".toList

/-! ### Any configuration (R8) -/

/-- This hardware is one value of the parameters of R8: its operations and its steps are those of the
block of any `Config`, at `ltcdec`. -/
def Obligations.HardwareIsOneConfiguration : Prop :=
  (∀ (i : Instr) (s : State), exec i s = execIn ltcdec i s) ∧ ∀ s : State, step s = stepIn ltcdec s

/-- R200 for every value of the parameters of R8: a constructed block never stops, whatever is presented.
What a cycle of other than one input does is the model's choice (log entry 18). -/
def Obligations.EveryConfigurationNeverStops : Prop :=
  ∀ (c : Config) (s : State), s.Ready → ∃ t, stepIn c s = .next t ∧ t.Ready

/-- R110, R111 for every value of the parameters of R8 (D3 to D7, D15): the initial contents, the rate
codes and table and the calibration are the configuration's, the windows formed from `BIT_DUR` as
written. That time values, `fd` among them, have their low `TW` bits is the model's (log entry 17).
Pins and pending inputs are kept (log entry 8); a code of no rate does nothing (log entry 9). -/
def Obligations.ConstructionFollowsParameters : Prop :=
  ∀ (c : Config) (sel : BitVec 3) (r : FrameRate) (fd bitDur : Word) (s : State),
    (c.rateOfSel sel = none → execIn c (.resetRate sel) s = .next s) ∧
    ((c.rateOfSel sel = some r ∧ bitDur = timeOf c (c.bitDurOfRate r) →
        execIn c (.resetRate sel) s = .next
          { constructed := true
            block :=
              { fb := c.initFb, half := .idle, tPrev := timeOf c c.initTPrev, rateSel := sel
                bitDur := bitDur
                shortMin := timeOf c (c.windowsOfBitDur bitDur).shortMin
                shortMax := timeOf c (c.windowsOfBitDur bitDur).shortMax
                longMin := timeOf c (c.windowsOfBitDur bitDur).longMin
                longMax := timeOf c (c.windowsOfBitDur bitDur).longMax
                syncPattern := 0xBFFC, syncEn := false, digits := c.initDigits }
            out := [], pins := s.pins, inputs := s.inputs }) ∧
      (bitDur = timeOf c (c.bitDurOfFrame (timeOf c fd)) →
        execIn c (.resetDur fd) s = .next
          { constructed := true
            block :=
              { fb := c.initFb, half := .idle, tPrev := timeOf c c.initTPrev, rateSel := c.customSel
                bitDur := bitDur
                shortMin := timeOf c (c.windowsOfBitDur bitDur).shortMin
                shortMax := timeOf c (c.windowsOfBitDur bitDur).shortMax
                longMin := timeOf c (c.windowsOfBitDur bitDur).longMin
                longMax := timeOf c (c.windowsOfBitDur bitDur).longMax
                syncPattern := 0xBFFC, syncEn := false, digits := c.initDigits }
            out := [], pins := s.pins, inputs := s.inputs }))

/-- R131 and U9 for every width `TW` (D3): an elapsed time below `2^TW` is classified as it is, whatever
wraps between the two edges. Time values stand in the low `TW` bits of a bus word (log entry 17). -/
def Obligations.ElapsedTimeBelowWidthIsClassified : Prop :=
  ∀ (c : Config) (now : Word) (elapsed : Nat) (s : State), s.Ready → s.block.half = .idle →
    elapsed < 2 ^ c.timeWidth →
    now.toNat % 2 ^ c.timeWidth = (s.block.tPrev.toNat + elapsed) % 2 ^ c.timeWidth →
    (execIn c (.edge now) s =
        .next { s with block := { s.block with tPrev := timeOf c now, half := .halfBitPending } } ↔
      s.block.shortMin.toNat ≤ elapsed ∧ elapsed ≤ s.block.shortMax.toNat)

/-- R153, R155, R156 for every compare convention (D11): an edge changes the digits or gives an event only
when the configuration's compare value of the two newest cells equals the pattern. -/
def Obligations.MatchFollowsCompareConvention : Prop :=
  ∀ (c : Config) (now : Word) (s t : State), execIn c (.edge now) s = .next t →
    t.block.digits ≠ s.block.digits ∨ t.out ≠ s.out →
    c.compareOfCells (t.block.fb.extractLsb' 72 8) (t.block.fb.extractLsb' 64 8) = s.block.syncPattern

/-- D11's porting note: with cell 0 as the low byte of the compare value and the two bytes of the pattern
exchanged, every edge does what it does on this hardware. -/
def Obligations.CellZeroLowSwapsThePattern : Prop :=
  ∀ (now : Word) (p : BitVec 16) (s t : State),
    p = s.block.syncPattern.extractLsb' 0 8 ++ s.block.syncPattern.extractLsb' 8 8 →
    exec (.edge now) s = .next t →
    execIn { ltcdec with compareOfCells := fun cell0 cell1 => cell1 ++ cell0 } (.edge now)
        { s with block := { s.block with syncPattern := p } } =
      .next { t with block := { t.block with syncPattern := p } }

/-- R69, R170, R171 for every register map (D17): an address has exactly the effect that an address of the
same register has on this hardware, and an unmapped one that of an unmapped one. -/
def Obligations.HostAccessFollowsRegisterMap : Prop :=
  ∀ (m : Byte → Option HostReg) (addr other : Byte) (data : Word) (s : State),
    m addr = regOfAddr other →
    execIn { ltcdec with regOfAddr := m } (.rd addr) s = exec (.rd other) s ∧
    execIn { ltcdec with regOfAddr := m } (.wr addr data) s = exec (.wr other data) s

/-- R36, R182 to R185 for every pair function (D13) and register map (D17): a time field reads as the
configuration's function of its digit pair. -/
def Obligations.TimeFieldsFollowPairFunction : Prop :=
  ∀ (c : Config) (addr : Byte) (r : HostReg) (a b : Byte) (s : State), s.Ready →
    c.regOfAddr addr = some r →
    (r, a, b) ∈
      [(HostReg.hours, s.block.digits[0], s.block.digits[1]),
       (HostReg.minutes, s.block.digits[2], s.block.digits[3]),
       (HostReg.seconds, s.block.digits[4], s.block.digits[5]),
       (HostReg.frames, s.block.digits[6], s.block.digits[7])] →
    execIn c (.rd addr) s =
      .next { s with pins := { s.pins with hRdata := some ((c.pairToInt a b).setWidth 32) } }

/-- R88, R92, R94 for every layout of the stimulus word (D19) and every code table (D7), one word a cycle
(D22): the step performs the operation the fields name. A `RESET_RATE` word with a code of no rate is
invalid (R94); that its step is that of performing the ill-formed term is the model's reading (log
entry 9), as the queue and the low pins are the model's (log entries 3 and 5). -/
def Obligations.StepFollowsWordLayout : Prop :=
  ∀ (c : Config) (w : StimulusWord) (rest : List Input) (i : Instr) (f : WordFields) (s : State),
    c.inputsPerCycle = 1 → s.inputs = .word w :: rest → c.splitWord w = f →
    (∃ sel : BitVec 3, f = { op := 0x01, addr := 0, data := sel.setWidth 32 } ∧ i = .resetRate sel) ∨
      (f = { op := 0x02, addr := 0, data := f.data } ∧ i = .resetDur f.data) ∨
      (f = { op := 0x03, addr := 0, data := f.data } ∧ i = .edge f.data) ∨
      (f = { op := 0x04, addr := f.addr, data := f.data } ∧ i = .wr f.addr f.data) ∨
      (f = { op := 0x05, addr := f.addr, data := 0 } ∧ i = .rd f.addr) →
    stepIn c s = execIn c i { s with pins := { hRdata := none, sync := false }, inputs := rest }

/-- D22 for every clocking: a cycle takes its number of presented inputs, and no operation takes or adds
one, reset operations included (log entries 3 and 8). What a number other than 1 means is the model's
choice (log entry 18). -/
def Obligations.CycleTakesItsInputs : Prop :=
  ∀ (c : Config) (s t : State), stepIn c s = .next t → t.inputs = s.inputs.drop c.inputsPerCycle
end

