-- ==== Sys2Proof/Laws/Parameters.lean ====
section
/-! SUPPORT. The parameters of this hardware: what each operation over a `Config` is at `ltcdec`. -/

namespace Sys2Proof.Machine

open Sys2Proof

/-! ### The fields: proofs rewrite with these and leave `ltcdec` itself folded -/

@[simp] theorem ltcdec_timeWidth : ltcdec.timeWidth = 32 := rfl
@[simp] theorem ltcdec_bitDurOfFrame : ltcdec.bitDurOfFrame = bitDurOfFrame := rfl
@[simp] theorem ltcdec_windowsOfBitDur : ltcdec.windowsOfBitDur = windowsOfBitDur := rfl
@[simp] theorem ltcdec_bitDurOfRate : ltcdec.bitDurOfRate = bitDurOfRate := rfl
@[simp] theorem ltcdec_rateOfSel : ltcdec.rateOfSel = rateOfSel := rfl
@[simp] theorem ltcdec_customSel : ltcdec.customSel = 0 := rfl
@[simp] theorem ltcdec_compareOfCells : ltcdec.compareOfCells = compareOfCells := rfl
@[simp] theorem ltcdec_pairToInt : ltcdec.pairToInt = pairToInt := rfl
@[simp] theorem ltcdec_initFb : ltcdec.initFb = 0 := rfl
@[simp] theorem ltcdec_initDigits : ltcdec.initDigits = #v[0, 0, 0, 0, 0, 0, 0, 0] := rfl
@[simp] theorem ltcdec_initTPrev : ltcdec.initTPrev = 0 := rfl
@[simp] theorem ltcdec_regOfAddr : ltcdec.regOfAddr = regOfAddr := rfl
@[simp] theorem ltcdec_splitWord : ltcdec.splitWord = splitWord := rfl
@[simp] theorem ltcdec_inputsPerCycle : ltcdec.inputsPerCycle = 1 := rfl

/-! ### Time values -/

theorem timeOf_toNat (c : Config) (v : Word) :
    (timeOf c v).toNat = v.toNat % 2 ^ c.timeWidth := by
  have := Nat.mod_le v.toNat (2 ^ c.timeWidth)
  simp only [timeOf, BitVec.toNat_ofNat]
  exact Nat.mod_eq_of_lt (by omega)

/-- Reducing a time value twice is reducing it once. -/
@[simp] theorem timeOf_timeOf (c : Config) (v : Word) : timeOf c (timeOf c v) = timeOf c v :=
  BitVec.eq_of_toNat_eq (by simp [timeOf_toNat])

/-- A bus word is a time value of 32 bits as it stands. -/
@[simp] theorem timeOf_ltcdec (v : Word) : timeOf ltcdec v = v :=
  BitVec.eq_of_toNat_eq ((timeOf_toNat _ v).trans (Nat.mod_eq_of_lt v.isLt))

theorem intervalOf_lt (c : Config) (b : Block) (now : Word) :
    intervalOf c b now < 2 ^ c.timeWidth := Nat.mod_lt _ (Nat.two_pow_pos _)

/-- The interval depends on `now` through its low `TW` bits only. -/
@[simp] theorem intervalOf_timeOf (c : Config) (b : Block) (now : Word) :
    intervalOf c b (timeOf c now) = intervalOf c b now := by
  simp [intervalOf, timeOf_toNat, Nat.add_mod]

/-- A distance below `2^TW` is measured exactly, whatever wraps in between (R131, U9). -/
theorem intervalOf_eq {c : Config} {b : Block} {now : Word} {e : Nat}
    (h : now.toNat % 2 ^ c.timeWidth = (b.tPrev.toNat + e) % 2 ^ c.timeWidth)
    (he : e < 2 ^ c.timeWidth) : intervalOf c b now = e := by
  have hp := Nat.mod_lt b.tPrev.toNat (Nat.two_pow_pos c.timeWidth)
  unfold intervalOf
  rw [Nat.add_mod, h, ← Nat.add_mod, Nat.add_assoc]
  generalize 2 ^ c.timeWidth = m at *
  have hd := Nat.div_add_mod b.tPrev.toNat m
  have : b.tPrev.toNat + (e + (m - b.tPrev.toNat % m)) = e + m * (b.tPrev.toNat / m + 1) := by
    rw [Nat.mul_add]; omega
  rw [this, Nat.add_mul_mod_self_left, Nat.mod_eq_of_lt he]

/-- The interval of R131 on this hardware: 32-bit subtraction with wrap-around. -/
@[simp] theorem intervalOf_ltcdec (b : Block) (now : Word) :
    intervalOf ltcdec b now = (now - b.tPrev).toNat := by
  have := now.isLt
  have := b.tPrev.isLt
  simp only [intervalOf, ltcdec_timeWidth, BitVec.toNat_sub]
  omega

/-! ### Codes, comparison and addresses -/

/-- The codes that name a rate are 1 to 5. -/
@[simp] theorem namesRate_ltcdec : namesRate ltcdec = legalRate := by
  funext sel; revert sel; decide

/-- `SYNC16 = FB[79:64]` on this hardware (R63). -/
@[simp] theorem compareValue_ltcdec (fb : FrameBits) :
    compareValue ltcdec fb = fb.extractLsb' 64 16 := by
  apply BitVec.eq_of_getLsbD_eq
  intro i hi
  simp only [compareValue, ltcdec_compareOfCells, compareOfCells, cellOf, BitVec.getLsbD_append,
    BitVec.getLsbD_extractLsb', hi, decide_true, Bool.true_and]
  split
  · simp [*]
  · simp only [show i - 8 < 8 by omega, decide_true, Bool.true_and]; congr 1; simp; omega

/-- The registers after construction on this hardware (R42, R110, R111). -/
theorem constructBlock_ltcdec (sel : BitVec 3) (bitDur : Word) :
    constructBlock ltcdec sel bitDur =
      { fb := 0, half := .idle, tPrev := 0, rateSel := sel, bitDur := bitDur
        shortMin := (windowsOfBitDur bitDur).shortMin
        shortMax := (windowsOfBitDur bitDur).shortMax
        longMin := (windowsOfBitDur bitDur).longMin
        longMax := (windowsOfBitDur bitDur).longMax
        syncPattern := Config.defaultSync, syncEn := false
        digits := #v[0, 0, 0, 0, 0, 0, 0, 0] } := by
  simp [constructBlock]

theorem execResetRate_ltcdec (sel : BitVec 3) (s : State) :
    execResetRate sel s =
      match rateOfSel sel with
      | some r => .next (construct ltcdec sel (bitDurOfRate r) s)
      | none => .next s := rfl

theorem execResetDur_ltcdec (fd : Word) (s : State) :
    execResetDur fd s = .next (construct ltcdec 0 (bitDurOfFrame fd) s) := by
  simp [execResetDur, resetDurIn]

/-- The register map read in the two directions agrees (R68). -/
theorem regOfAddr_addrOfReg (r : HostReg) : regOfAddr (addrOfReg r) = some r := by
  cases r with
  | cell i => fin_cases i <;> rfl
  | digit k => fin_cases k <;> rfl
  | _ => rfl

theorem regOfAddr_all_named :
    ∀ addr : Byte, (regOfAddr addr).all (fun r => decide (addrOfReg r = addr)) = true := by
  decide +revert

theorem addr_of_regOfAddr {addr : Byte} {r : HostReg} (h : regOfAddr addr = some r) :
    addr = addrOfReg r := by
  have := regOfAddr_all_named addr
  rw [h] at this
  exact (of_decide_eq_true this).symm

end Sys2Proof.Machine
end

