-- ==== Sys2Proof/Laws/Decode.lean ====
section
/-! SUPPORT. The fields of a packed word, a word from its fields, and the decoder by fields. -/

namespace Sys2Proof

open Sys2Proof.Machine

section
variable (op addr : Byte) (data : Word)

@[simp] theorem opField_packWord : opField (packWord op addr data) = op := by
  apply BitVec.eq_of_getLsbD_eq
  intro i hi
  simp only [opField, packWord, BitVec.getLsbD_extractLsb', BitVec.getLsbD_append]
  rw [if_neg (by omega), if_neg (by omega)]
  simp only [hi, decide_true, Bool.true_and]
  congr 1; omega

@[simp] theorem addrField_packWord : addrField (packWord op addr data) = addr := by
  apply BitVec.eq_of_getLsbD_eq
  intro i hi
  simp only [addrField, packWord, BitVec.getLsbD_extractLsb', BitVec.getLsbD_append]
  rw [if_neg (by omega), if_pos (by omega)]
  simp only [hi, decide_true, Bool.true_and]
  congr 1; omega

@[simp] theorem dataField_packWord : dataField (packWord op addr data) = data := by
  apply BitVec.eq_of_getLsbD_eq
  intro i hi
  simp only [dataField, packWord, BitVec.getLsbD_extractLsb', BitVec.getLsbD_append]
  rw [if_pos (by omega)]
  simp [hi]

@[simp] theorem splitWord_packWord :
    splitWord (packWord op addr data) = { op := op, addr := addr, data := data } := by
  simp [splitWord]

/-- The base operation of a packed word is decided by its fields. -/
theorem decodeBase_packWord :
    decodeBase (packWord op addr data) =
      decodeFields ltcdec { op := op, addr := addr, data := data } := by
  simp [decodeBase]

end

theorem packWord_fields (w : StimulusWord) :
    packWord (opField w) (addrField w) (dataField w) = w := by
  apply BitVec.eq_of_getLsbD_eq
  intro i hi
  simp only [opField, addrField, dataField, packWord, BitVec.getLsbD_append,
    BitVec.getLsbD_extractLsb']
  split
  · simp [*]
  · split
    · simp only [show i - 32 < 8 by omega, decide_true, Bool.true_and]; congr 1; omega
    · simp only [show i - 32 - 8 < 8 by omega, decide_true, Bool.true_and]; congr 1; omega

/-- The decoder names the row of the base operation (log entry 4). -/
theorem decode_eq (w : StimulusWord) : decode w = (decodeBase w).map nameInstr := rfl

/-- A word is invalid exactly when no base operation is decoded from it. -/
theorem decode_eq_error {w : StimulusWord} {e : InvalidWord} :
    decode w = .error e ↔ decodeBase w = .error e := by
  rw [decode_eq]; cases decodeBase w <;> simp [Except.map]

/-- `RESET_RATE` on this hardware takes the codes 1 to 5 (R86, R94). -/
theorem decodeResetRate_ltcdec (addr : Byte) (data : Word) :
    decodeResetRate ltcdec addr data =
      if addr ≠ 0 then .error .nonzeroAddr
      else if data.extractLsb' 3 29 ≠ 0 then .error .nonzeroReserved
      else if legalRate (data.extractLsb' 0 3) then .ok (.resetRate (data.extractLsb' 0 3))
      else .error .illegalRate := by
  simp only [decodeResetRate, namesRate_ltcdec]

/-- The base operation of a word of this hardware, by the word's fields (R92, R94). -/
theorem decodeBase_eq (w : StimulusWord) :
    decodeBase w =
      if opField w = 0x01 then decodeResetRate ltcdec (addrField w) (dataField w)
      else if opField w = 0x02 then
        if addrField w = 0 then .ok (.resetDur (dataField w)) else .error .nonzeroAddr
      else if opField w = 0x03 then
        if addrField w = 0 then .ok (.edge (dataField w)) else .error .nonzeroAddr
      else if opField w = 0x04 then .ok (.wr (addrField w) (dataField w))
      else if opField w = 0x05 then
        if dataField w = 0 then .ok (.rd (addrField w)) else .error .nonzeroReserved
      else .error .unassignedOp := rfl

/-! ### Naming a row keeps its operation -/

theorem operation_nameWr (addr : Byte) (data : Word) :
    (nameWr addr data).operation = .write addr data := by
  unfold nameWr
  repeat' split
  all_goals simp_all [Instr.operation]

theorem operation_nameRd : ∀ addr : Byte, (nameRd addr).operation = .read addr := by
  decide +revert

/-- The most specific row stands for the same operation (R99, R100). -/
@[simp] theorem operation_nameInstr (i : Instr) : (nameInstr i).operation = i.operation := by
  cases i <;> first | rfl | exact operation_nameWr _ _ | exact operation_nameRd _

end Sys2Proof
end

