-- ==== Sys2Proof/Laws/State.lean ====
section
/-! SUPPORT. One lemma per field per state update. -/

namespace Sys2Proof.Machine

open Sys2Proof

variable (s : State) (f : Block → Block) (xs : List Input) (v : Word)

@[simp] theorem State.mapBlock_constructed : (s.mapBlock f).constructed = s.constructed := rfl
@[simp] theorem State.mapBlock_block : (s.mapBlock f).block = f s.block := rfl
@[simp] theorem State.mapBlock_out : (s.mapBlock f).out = s.out := rfl
@[simp] theorem State.mapBlock_pins : (s.mapBlock f).pins = s.pins := rfl
@[simp] theorem State.mapBlock_inputs : (s.mapBlock f).inputs = s.inputs := rfl

@[simp] theorem State.beginCycle_constructed : s.beginCycle.constructed = s.constructed := rfl
@[simp] theorem State.beginCycle_block : s.beginCycle.block = s.block := rfl
@[simp] theorem State.beginCycle_out : s.beginCycle.out = s.out := rfl
@[simp] theorem State.beginCycle_pins : s.beginCycle.pins = .low := rfl
@[simp] theorem State.beginCycle_inputs : s.beginCycle.inputs = s.inputs := rfl

@[simp] theorem State.withInputs_constructed : (s.withInputs xs).constructed = s.constructed := rfl
@[simp] theorem State.withInputs_block : (s.withInputs xs).block = s.block := rfl
@[simp] theorem State.withInputs_out : (s.withInputs xs).out = s.out := rfl
@[simp] theorem State.withInputs_pins : (s.withInputs xs).pins = s.pins := rfl
@[simp] theorem State.withInputs_inputs : (s.withInputs xs).inputs = xs := rfl

@[simp] theorem State.respond_constructed : (s.respond v).constructed = s.constructed := rfl
@[simp] theorem State.respond_block : (s.respond v).block = s.block := rfl
@[simp] theorem State.respond_out : (s.respond v).out = s.out := rfl
@[simp] theorem State.respond_hRdata : (s.respond v).pins.hRdata = some v := rfl
@[simp] theorem State.respond_sync : (s.respond v).pins.sync = s.pins.sync := rfl
@[simp] theorem State.respond_inputs : (s.respond v).inputs = s.inputs := rfl

end Sys2Proof.Machine
end

