-- ==== Sys2Proof/Laws/Ops.lean ====
section
/-! SUPPORT. For each shared operation, what it can do. -/

namespace Sys2Proof.Machine

open Sys2Proof

/-! ### The refusal before construction -/

theorem whenConstructed_of_ready {s : State} (h : s.constructed = true) (t : State) :
    whenConstructed s t = .next t := by
  simp [whenConstructed, h]

theorem whenConstructed_of_not {s : State} (h : s.constructed = false) (t : State) :
    whenConstructed s t = .refused .notConstructed := by
  simp [whenConstructed, h]

theorem whenConstructed_eq_next {s t u : State} :
    whenConstructed s t = .next u ↔ s.constructed = true ∧ t = u := by
  cases h : s.constructed <;> simp [whenConstructed, h]

/-! ### Sync events and `emit` -/

section
variable (c : Config) (bit : BitVec 1) (s : State)

theorem syncEvent_cases :
    syncEvent s =
      if s.block.syncEn then
        { s with
          block := { s.block with digits := digitsOf s.block.fb }
          out := s.out ++ [{ digits := digitsOf s.block.fb }]
          pins := { s.pins with sync := true } }
      else { s with block := { s.block with digits := digitsOf s.block.fb } } := by
  cases h : s.block.syncEn <;> simp [syncEvent, State.mapBlock, outputSync, h]

/-- Everything `emit` can do: shift only, or shift and extract, with or without the callback. -/
theorem emit_cases :
    (compareValue c (shiftIn bit s.block.fb) ≠ s.block.syncPattern ∧
      emit c bit s = { s with block := { s.block with fb := shiftIn bit s.block.fb } }) ∨
    (compareValue c (shiftIn bit s.block.fb) = s.block.syncPattern ∧ s.block.syncEn = false ∧
      emit c bit s =
        { s with
          block :=
            { s.block with
              fb := shiftIn bit s.block.fb
              digits := digitsOf (shiftIn bit s.block.fb) } }) ∨
    (compareValue c (shiftIn bit s.block.fb) = s.block.syncPattern ∧ s.block.syncEn = true ∧
      emit c bit s =
        { s with
          block :=
            { s.block with
              fb := shiftIn bit s.block.fb
              digits := digitsOf (shiftIn bit s.block.fb) }
          out := s.out ++ [{ digits := digitsOf (shiftIn bit s.block.fb) }]
          pins := { s.pins with sync := true } }) := by
  by_cases hm : compareValue c (shiftIn bit s.block.fb) = s.block.syncPattern
  · cases he : s.block.syncEn <;> simp [emit, State.mapBlock, hm, syncEvent_cases, he]
  · simp [emit, State.mapBlock, hm]

/-- The fields `emit` never writes (R150: "`HALF` and `T_PREV` are not touched by `emit`"). -/
theorem emit_keeps :
    (emit c bit s).constructed = s.constructed ∧ (emit c bit s).inputs = s.inputs ∧
    (emit c bit s).pins.hRdata = s.pins.hRdata ∧
    (emit c bit s).block =
      { s.block with fb := (emit c bit s).block.fb, digits := (emit c bit s).block.digits } := by
  rcases emit_cases c bit s with ⟨-, h⟩ | ⟨-, -, h⟩ | ⟨-, -, h⟩ <;> simp [h]

@[simp] theorem emit_fb : (emit c bit s).block.fb = shiftIn bit s.block.fb := by
  rcases emit_cases c bit s with ⟨-, h⟩ | ⟨-, -, h⟩ | ⟨-, -, h⟩ <;> simp [h]

end

/-! ### Edges -/

/-- The pulse classes by the window registers (R132). -/
theorem classify_eq_short {b : Block} {dt : Nat} :
    classify b dt = .short ↔ b.shortMin.toNat ≤ dt ∧ dt ≤ b.shortMax.toNat := by
  unfold classify; split <;> [simp_all; split <;> simp_all]

theorem classify_eq_long {b : Block} {dt : Nat} :
    classify b dt = .long ↔
      ¬ (b.shortMin.toNat ≤ dt ∧ dt ≤ b.shortMax.toNat) ∧
        b.longMin.toNat ≤ dt ∧ dt ≤ b.longMax.toNat := by
  unfold classify; split <;> [simp_all; split <;> simp_all]

theorem classify_eq_unrecognized {b : Block} {dt : Nat} :
    classify b dt = .unrecognized ↔
      ¬ (b.shortMin.toNat ≤ dt ∧ dt ≤ b.shortMax.toNat) ∧
        ¬ (b.longMin.toNat ≤ dt ∧ dt ≤ b.longMax.toNat) := by
  unfold classify; split <;> [simp_all; split <;> simp_all]

/-- The class of a 32-bit interval, in the bit-vector comparisons the statements use. -/
theorem classify_toNat_eq_short {b : Block} {dt : Word} :
    classify b dt.toNat = .short ↔ b.shortMin ≤ dt ∧ dt ≤ b.shortMax := by
  simp only [classify_eq_short, BitVec.le_def]

theorem classify_toNat_eq_long {b : Block} {dt : Word} :
    classify b dt.toNat = .long ↔
      ¬ (b.shortMin ≤ dt ∧ dt ≤ b.shortMax) ∧ b.longMin ≤ dt ∧ dt ≤ b.longMax := by
  simp only [classify_eq_long, BitVec.le_def]

theorem classify_toNat_eq_unrecognized {b : Block} {dt : Word} :
    classify b dt.toNat = .unrecognized ↔
      ¬ (b.shortMin ≤ dt ∧ dt ≤ b.shortMax) ∧ ¬ (b.longMin ≤ dt ∧ dt ≤ b.longMax) := by
  simp only [classify_eq_unrecognized, BitVec.le_def]

/-- One edge by its class: `T_PREV` and `HALF`, then the bit if there is one (R130, R133). -/
theorem processEdge_of_class {c : Config} {now : Word} {s : State} {k : PulseClass}
    (h : classify s.block (intervalOf c s.block now) = k) :
    processEdge c now s =
      emitIfAny c (emittedBit s.block.half k)
        (s.mapBlock fun b =>
          { b with tPrev := timeOf c now, half := nextHalf s.block.half k }) := by
  subst h; rfl

/-- Everything one edge can do: only move `T_PREV` and `HALF`, or go to `Idle` and emit a bit (R133). -/
theorem processEdge_cases (c : Config) (now : Word) (s : State) :
    (∃ h, processEdge c now s = s.mapBlock fun b => { b with tPrev := timeOf c now, half := h }) ∨
    (∃ bit, processEdge c now s =
      emit c bit (s.mapBlock fun b => { b with tPrev := timeOf c now, half := .idle })) := by
  unfold processEdge State.mapBlock
  cases hh : s.block.half <;> cases hk : classify s.block (intervalOf c s.block now)
  · exact .inl ⟨.halfBitPending, rfl⟩
  · exact .inr ⟨0, rfl⟩
  · exact .inl ⟨.idle, rfl⟩
  · exact .inr ⟨1, rfl⟩
  · exact .inl ⟨.idle, rfl⟩
  · exact .inl ⟨.halfBitPending, rfl⟩

/-- The same on this hardware, where `now` is a time value as it stands. -/
theorem processEdge_ltcdec_cases (now : Word) (s : State) :
    (∃ h, processEdge ltcdec now s = s.mapBlock fun b => { b with tPrev := now, half := h }) ∨
    (∃ bit, processEdge ltcdec now s =
      emit ltcdec bit (s.mapBlock fun b => { b with tPrev := now, half := .idle })) := by
  simpa using processEdge_cases ltcdec now s

/-- One edge of this hardware by the class of its 32-bit interval (R130, R131, R133). -/
theorem processEdge_ltcdec_of_class {now : Word} {s : State} {k : PulseClass}
    (h : classify s.block (now - s.block.tPrev).toNat = k) :
    processEdge ltcdec now s =
      emitIfAny ltcdec (emittedBit s.block.half k)
        (s.mapBlock fun b => { b with tPrev := now, half := nextHalf s.block.half k }) := by
  simpa using processEdge_of_class (c := ltcdec) (now := now) (by simpa using h)

/-- The fields an edge never writes (R72, R130). -/
theorem processEdge_keeps (c : Config) (now : Word) (s : State) :
    (processEdge c now s).constructed = s.constructed ∧
    (processEdge c now s).inputs = s.inputs ∧
    (processEdge c now s).pins.hRdata = s.pins.hRdata ∧
    (processEdge c now s).block =
      { s.block with
        tPrev := timeOf c now
        half := (processEdge c now s).block.half
        fb := (processEdge c now s).block.fb
        digits := (processEdge c now s).block.digits } := by
  rcases processEdge_cases c now s with ⟨h, e⟩ | ⟨bit, e⟩ <;> rw [e]
  · simp
  · obtain ⟨hc, hi, hp, hb⟩ :=
      emit_keeps c bit (s.mapBlock fun b => { b with tPrev := timeOf c now, half := .idle })
    refine ⟨hc, hi, hp, ?_⟩
    rw [hb]; simp

/-! ### Host access -/

/-- `hostWrite` over all addresses: the six writable registers, and nothing elsewhere (R170). -/
theorem hostWrite_cases (b : Block) (addr : Byte) (data : Word) :
    (addr = 0x00 ∧ hostWrite b addr data = { b with syncEn := data.getLsbD 0 }) ∨
    (addr = 0x04 ∧ hostWrite b addr data = { b with syncPattern := data.setWidth 16 }) ∨
    (addr = 0x05 ∧ hostWrite b addr data = { b with shortMin := data }) ∨
    (addr = 0x06 ∧ hostWrite b addr data = { b with shortMax := data }) ∨
    (addr = 0x07 ∧ hostWrite b addr data = { b with longMin := data }) ∨
    (addr = 0x08 ∧ hostWrite b addr data = { b with longMax := data }) ∨
    hostWrite b addr data = b := by
  unfold hostWrite hostWriteIn
  cases h : ltcdec.regOfAddr addr with
  | none => simp
  | some r =>
    have ha := addr_of_regOfAddr h
    cases r <;> simp [ha, addrOfReg, writeReg, narrowBit, narrow]

/-- The fields a host write never writes, whatever the register map (R72, R170). -/
theorem hostWriteIn_keeps (c : Config) (b : Block) (addr : Byte) (data : Word) :
    (hostWriteIn c b addr data).fb = b.fb ∧ (hostWriteIn c b addr data).half = b.half ∧
    (hostWriteIn c b addr data).tPrev = b.tPrev ∧
    (hostWriteIn c b addr data).digits = b.digits ∧
    (hostWriteIn c b addr data).rateSel = b.rateSel ∧
    (hostWriteIn c b addr data).bitDur = b.bitDur := by
  unfold hostWriteIn
  cases c.regOfAddr addr with
  | none => simp
  | some r => cases r <;> simp [writeReg]

/-! The six writable registers of this hardware, one by one (R170, R172 to R176). -/

section
variable (b : Block) (data : Word)

@[simp] theorem hostWrite_ctrl : hostWrite b 0x00#8 data = { b with syncEn := data.getLsbD 0 } := rfl
@[simp] theorem hostWrite_syncPattern :
    hostWrite b 0x04#8 data = { b with syncPattern := data.setWidth 16 } := rfl
@[simp] theorem hostWrite_shortMin : hostWrite b 0x05#8 data = { b with shortMin := data } :=
  congrArg (fun v => { b with shortMin := v }) (timeOf_ltcdec data)
@[simp] theorem hostWrite_shortMax : hostWrite b 0x06#8 data = { b with shortMax := data } :=
  congrArg (fun v => { b with shortMax := v }) (timeOf_ltcdec data)
@[simp] theorem hostWrite_longMin : hostWrite b 0x07#8 data = { b with longMin := data } :=
  congrArg (fun v => { b with longMin := v }) (timeOf_ltcdec data)
@[simp] theorem hostWrite_longMax : hostWrite b 0x08#8 data = { b with longMax := data } :=
  congrArg (fun v => { b with longMax := v }) (timeOf_ltcdec data)

end

/-- A write to an address that is none of the six changes nothing (R69). -/
theorem hostWrite_elsewhere {addr : Byte} (b : Block) (data : Word)
    (h : addr ∉ [0x00, 0x04, 0x05, 0x06, 0x07, 0x08]) : hostWrite b addr data = b := by
  have := hostWrite_cases b addr data
  simp only [List.mem_cons, List.not_mem_nil, or_false, not_or] at h
  simp_all

/-- No register's value depends on `T_PREV` (R39). -/
theorem hostRead_tPrev (c : Config) (b : Block) (x : Word) (addr : Byte) :
    hostRead c { b with tPrev := x } addr = hostRead c b addr := by
  unfold hostRead
  cases c.regOfAddr addr with
  | none => rfl
  | some r => cases r <;> rfl

theorem performRead_of_ready {s : State} (h : s.constructed = true) (addr : Byte) :
    performRead addr s = .next (s.respond (hostRead ltcdec s.block addr)) :=
  whenConstructed_of_ready h _

theorem performWrite_of_ready {s : State} (h : s.constructed = true) (addr : Byte) (data : Word) :
    performWrite addr data s = .next (s.mapBlock fun b => hostWrite b addr data) :=
  whenConstructed_of_ready h _

/-! ### Lists of operations -/

section
variable (run : Instr → State → Result)

@[simp] theorem performWith_nil (s : State) : performWith run [] s = .next s := rfl

theorem performWith_singleton (i : Instr) (s : State) : performWith run [i] s = run i s := by
  unfold performWith; cases run i s <;> rfl

variable {run}

theorem performWith_cons_of_next {i : Instr} {s t : State} (h : run i s = .next t)
    (rest : List Instr) : performWith run (i :: rest) s = performWith run rest t := by
  simp [performWith, h]

/-- A list that answers a next state does so through the next state of its first operation. -/
theorem performWith_cons_eq_next {i : Instr} {rest : List Instr} {s t : State} :
    performWith run (i :: rest) s = .next t ↔
      ∃ u, run i s = .next u ∧ performWith run rest u = .next t := by
  simp only [performWith]; cases run i s <;> simp

theorem performWith_append_of_next {xs : List Instr} :
    ∀ {s t : State}, performWith run xs s = .next t →
      ∀ ys, performWith run (xs ++ ys) s = performWith run ys t := by
  induction xs with
  | nil => intro s t h ys; cases h; rfl
  | cons i rest ih =>
    intro s t h ys
    obtain ⟨u, hu, ht⟩ := performWith_cons_eq_next.1 h
    rw [List.cons_append, performWith_cons_of_next hu]; exact ih ht ys

/-- What every operation keeps, a list of operations keeps. -/
theorem performWith_keeps {P : State → Prop}
    (h : ∀ i s t, P s → run i s = .next t → P t) :
    ∀ (xs : List Instr) {s t : State}, P s → performWith run xs s = .next t → P t
  | [], _, _, hs, ht => by cases ht; exact hs
  | i :: rest, _, _, hs, ht => by
    obtain ⟨u, hu, ht⟩ := performWith_cons_eq_next.1 ht
    exact performWith_keeps h rest (h i _ _ hs hu) ht

/-- Where every operation completes and keeps `P`, so does a list of operations. -/
theorem performWith_completes {P : State → Prop}
    (h : ∀ i s, P s → ∃ t, run i s = .next t ∧ P t) :
    ∀ (xs : List Instr) (s : State), P s → ∃ t, performWith run xs s = .next t ∧ P t
  | [], s, hs => ⟨s, rfl, hs⟩
  | i :: rest, s, hs => by
    obtain ⟨u, hu, hu'⟩ := h i s hs
    obtain ⟨t, ht⟩ := performWith_completes h rest u hu'
    exact ⟨t, (performWith_cons_of_next hu rest).trans ht.1, ht.2⟩

end

@[simp] theorem perform_nil (s : State) : perform [] s = .next s := rfl

theorem perform_singleton (i : Instr) (s : State) : perform [i] s = exec i s :=
  performWith_singleton exec i s

theorem perform_cons_of_next {i : Instr} {s t : State} (h : exec i s = .next t) (rest : List Instr) :
    perform (i :: rest) s = perform rest t := performWith_cons_of_next h rest

theorem perform_cons_eq_next {i : Instr} {rest : List Instr} {s t : State} :
    perform (i :: rest) s = .next t ↔ ∃ u, exec i s = .next u ∧ perform rest u = .next t :=
  performWith_cons_eq_next

theorem perform_append_of_next {xs : List Instr} {s t : State} (h : perform xs s = .next t)
    (ys : List Instr) : perform (xs ++ ys) s = perform ys t := performWith_append_of_next h ys

/-! ### Steps -/

/-- A step of a block that performs one input in a cycle, by what is presented. -/
theorem advance_of_one {c : Config} (h : c.inputsPerCycle = 1) (run : Instr → State → Result)
    (s : State) :
    advance c run s =
      match s.inputs with
      | [] => .next s.beginCycle
      | inp :: rest => performWith run (inp.operations c) (s.beginCycle.withInputs rest) := by
  unfold advance
  rw [h]
  cases hi : s.inputs with
  | nil => simp [State.withInputs, State.beginCycle, hi]
  | cons inp rest => simp

/-- A step of this hardware, by what is presented (R26, R27). -/
theorem step_eq (s : State) :
    step s =
      match s.inputs with
      | [] => .next s.beginCycle
      | inp :: rest => perform (inp.operations ltcdec) (s.beginCycle.withInputs rest) :=
  advance_of_one rfl exec s

end Sys2Proof.Machine
end

