-- ==== Sys2Proof/Laws/PerInstr.lean ====
section
/-! SUPPORT. The family NamesBaseWord: every row has exactly the word of the base operation it stands
for, and a base operation stands for itself (R99, R100). -/

namespace Sys2Proof.Laws

open Sys2Proof

/-- The word of a row is its base operation's word, and naming the base again changes nothing. -/
def NamesBaseWord.Statement (i : Instr) : Prop := encode i.base = encode i ∧ i.base.base = i.base

theorem NamesBaseWord.resetRate (sel : BitVec 3) : NamesBaseWord.Statement (.resetRate sel) := ⟨rfl, rfl⟩
theorem NamesBaseWord.resetDur (fd : Word) : NamesBaseWord.Statement (.resetDur fd) := ⟨rfl, rfl⟩
theorem NamesBaseWord.edge (now : Word) : NamesBaseWord.Statement (.edge now) := ⟨rfl, rfl⟩
theorem NamesBaseWord.wr (addr : Byte) (data : Word) : NamesBaseWord.Statement (.wr addr data) := ⟨rfl, rfl⟩
theorem NamesBaseWord.rd (addr : Byte) : NamesBaseWord.Statement (.rd addr) := ⟨rfl, rfl⟩
theorem NamesBaseWord.onsync : NamesBaseWord.Statement (.onsync) := ⟨rfl, rfl⟩
theorem NamesBaseWord.offsync : NamesBaseWord.Statement (.offsync) := ⟨rfl, rfl⟩
theorem NamesBaseWord.setSync (data : Word) : NamesBaseWord.Statement (.setSync data) := ⟨rfl, rfl⟩
theorem NamesBaseWord.wrShortMin (data : Word) : NamesBaseWord.Statement (.wrShortMin data) := ⟨rfl, rfl⟩
theorem NamesBaseWord.wrShortMax (data : Word) : NamesBaseWord.Statement (.wrShortMax data) := ⟨rfl, rfl⟩
theorem NamesBaseWord.wrLongMin (data : Word) : NamesBaseWord.Statement (.wrLongMin data) := ⟨rfl, rfl⟩
theorem NamesBaseWord.wrLongMax (data : Word) : NamesBaseWord.Statement (.wrLongMax data) := ⟨rfl, rfl⟩
theorem NamesBaseWord.getCtrl : NamesBaseWord.Statement (.getCtrl) := ⟨rfl, rfl⟩
theorem NamesBaseWord.getStatus : NamesBaseWord.Statement (.getStatus) := ⟨rfl, rfl⟩
theorem NamesBaseWord.getRate : NamesBaseWord.Statement (.getRate) := ⟨rfl, rfl⟩
theorem NamesBaseWord.getBitdur : NamesBaseWord.Statement (.getBitdur) := ⟨rfl, rfl⟩
theorem NamesBaseWord.getSync : NamesBaseWord.Statement (.getSync) := ⟨rfl, rfl⟩
theorem NamesBaseWord.getShortMin : NamesBaseWord.Statement (.getShortMin) := ⟨rfl, rfl⟩
theorem NamesBaseWord.getShortMax : NamesBaseWord.Statement (.getShortMax) := ⟨rfl, rfl⟩
theorem NamesBaseWord.getLongMin : NamesBaseWord.Statement (.getLongMin) := ⟨rfl, rfl⟩
theorem NamesBaseWord.getLongMax : NamesBaseWord.Statement (.getLongMax) := ⟨rfl, rfl⟩
theorem NamesBaseWord.getCell (i : BitVec 4) : NamesBaseWord.Statement (.getCell i) := ⟨rfl, rfl⟩
theorem NamesBaseWord.getDigit (k : BitVec 3) : NamesBaseWord.Statement (.getDigit k) := ⟨rfl, rfl⟩
theorem NamesBaseWord.getHours : NamesBaseWord.Statement (.getHours) := ⟨rfl, rfl⟩
theorem NamesBaseWord.getMinutes : NamesBaseWord.Statement (.getMinutes) := ⟨rfl, rfl⟩
theorem NamesBaseWord.getSeconds : NamesBaseWord.Statement (.getSeconds) := ⟨rfl, rfl⟩
theorem NamesBaseWord.getFrames : NamesBaseWord.Statement (.getFrames) := ⟨rfl, rfl⟩

end Sys2Proof.Laws
end

