-- ==== Sys2Proof/Machine/TraceText.lean ====
section
/-! DEFINITION. Trace text (R98): reading one line `MNEMONIC operand, operand`, and writing a stimulus
word as 12 hex digits. A testbench artefact; no operation depends on it. -/

namespace Sys2Proof.Machine

open Sys2Proof

/-- The value of a hex digit, either case. -/
def hexValue (c : Char) : Option Nat :=
  if '0' ≤ c ∧ c ≤ '9' then some (c.toNat - 48)
  else if 'A' ≤ c ∧ c ≤ 'F' then some (c.toNat - 55)
  else if 'a' ≤ c ∧ c ≤ 'f' then some (c.toNat - 87)
  else none

/-- A numeral in one base, most significant digit first, continued from `acc`. -/
def readDigits (base : Nat) : Nat → List Char → Option Nat
  | acc, [] => some acc
  | acc, c :: rest =>
    match hexValue c with
    | some d => if d < base then readDigits base (base * acc + d) rest else none
    | none => none

/-- "Numbers are decimal or `0x` hex" (R98). -/
def readNumber : List Char → Option Nat
  | [] => none
  | '0' :: 'x' :: d :: rest => readDigits 16 0 (d :: rest)
  | cs => readDigits 10 0 cs

/-- A number that fits `n` bits; a larger one is no operand (log entry 12). -/
def readOperand (n : Nat) (cs : List Char) : Option (BitVec n) :=
  match readNumber cs with
  | some v => if v < 2 ^ n then some (BitVec.ofNat n v) else none
  | none => none

/-- The names of the registers outside the two numbered groups, with their addresses (R68). -/
def registerNames : List (List Char × Byte) :=
  [("CTRL".toList, 0x00), ("STATUS".toList, 0x01), ("RATE_SEL".toList, 0x02),
   ("BIT_DUR".toList, 0x03), ("SYNC_PATTERN".toList, 0x04), ("SHORT_MIN".toList, 0x05),
   ("SHORT_MAX".toList, 0x06), ("LONG_MIN".toList, 0x07), ("LONG_MAX".toList, 0x08)] ++
  [("HOURS".toList, 0x28), ("MINUTES".toList, 0x29), ("SECONDS".toList, 0x2A),
   ("FRAMES".toList, 0x2B)]

/-- A register operand, "by name or by address" (R98). -/
def readAddress : List Char → Option Byte
  | ['C', 'E', 'L', 'L', c] =>
    match readOperand 8 [c] with
    | some i => some (0x10 + i)
    | none => none
  | ['D', 'I', 'G', 'I', 'T', c] =>
    match readOperand 8 [c] with
    | some k => if k ≤ 7 then some (0x20 + k) else none
    | none => none
  | cs =>
    match registerNames.lookup cs with
    | some a => some a
    | none => readOperand 8 cs

/-- A style operand by name or by number (R87, R98). -/
def readStyle (cs : List Char) : Option SeparatorStyle :=
  if cs = "dot".toList ∨ cs = ['0'] then some .dot
  else if cs = "colon".toList ∨ cs = ['1'] then some .colon
  else if cs = "colonDot".toList ∨ cs = ['2'] then some .colonDot
  else if cs = "space".toList ∨ cs = ['3'] then some .space
  else none

/-- Pieces between blanks and commas, up to a `;` (R98); `cur` is the piece being read, reversed. -/
def tokens : List Char → List Char → List (List Char)
  | cur, [] => if cur.isEmpty then [] else [cur.reverse]
  | cur, c :: rest =>
    if c = ';' then (if cur.isEmpty then [] else [cur.reverse])
    else if c = ' ' ∨ c = ',' then
      (if cur.isEmpty then tokens [] rest else cur.reverse :: tokens [] rest)
    else tokens (c :: cur) rest

/-- The lines without an operand (R99). -/
def plainLines : List (List Char × Instr) :=
  [("ONSYNC".toList, .onsync), ("OFFSYNC".toList, .offsync), ("GET_CTRL".toList, .getCtrl),
   ("GET_STATUS".toList, .getStatus), ("GET_RATE".toList, .getRate),
   ("GET_BITDUR".toList, .getBitdur), ("GET_SYNC".toList, .getSync)] ++
  [("GET_SHORT_MIN".toList, .getShortMin), ("GET_SHORT_MAX".toList, .getShortMax),
   ("GET_LONG_MIN".toList, .getLongMin), ("GET_LONG_MAX".toList, .getLongMax),
   ("GET_HOURS".toList, .getHours), ("GET_MINUTES".toList, .getMinutes),
   ("GET_SECONDS".toList, .getSeconds), ("GET_FRAMES".toList, .getFrames)]

/-- A line with one operand (R98, R99). -/
def readOne (m a : List Char) : Option Pseudo :=
  if m = "RESET_RATE".toList then (readOperand 3 a).map fun v => .op (.resetRate v)
  else if m = "RESET_DUR".toList then (readOperand 32 a).map fun v => .op (.resetDur v)
  else if m = "EDGE".toList then (readOperand 32 a).map fun v => .op (.edge v)
  else if m = "RD".toList then (readAddress a).map fun v => .op (.rd v)
  else if m = "SET_SYNC".toList then (readOperand 32 a).map fun v => .op (.setSync v)
  else if m = "GET_CELL".toList then
    (readOperand 4 a).bind fun v => if legalCell v then some (.op (.getCell v)) else none
  else if m = "GET_DIGIT".toList then (readOperand 3 a).map fun v => .op (.getDigit v)
  else if m = "GET_TIMECODE".toList then (readStyle a).map .getTimecode
  else if m = "PULSE".toList then (readOperand 32 a).map .pulse
  else none

/-- A line with two operands (R98, R99). -/
def readTwo (m a b : List Char) : Option Pseudo :=
  if m = "WR".toList then
    (readAddress a).bind fun x => (readOperand 32 b).map fun v => .op (.wr x v)
  else if m = "SET_SHORT".toList then
    (readOperand 32 a).bind fun x => (readOperand 32 b).map fun v => .setShort x v
  else if m = "SET_LONG".toList then
    (readOperand 32 a).bind fun x => (readOperand 32 b).map fun v => .setLong x v
  else none

/-- One line of trace text (R98); `none` where it is no operation. -/
def readLine (line : List Char) : Option Pseudo :=
  match tokens [] line with
  | [m] => (plainLines.lookup m).map .op
  | [m, a] => readOne m a
  | [m, a, b] => readTwo m a b
  | _ => none

/-- One hex digit, capital (R98). -/
def hexChar (n : BitVec 4) : Char :=
  if n.toNat < 10 then Char.ofNat (48 + n.toNat) else Char.ofNat (55 + n.toNat)

/-- The `n` lowest hex digits of a word, most significant first. -/
def hexDigits (w : StimulusWord) : Nat → List Char
  | 0 => []
  | n + 1 => hexChar (w.extractLsb' (4 * n) 4) :: hexDigits w n

/-- A word "written as 12 hex digits, `op` first" (R98). -/
def listingOf (w : StimulusWord) : List Char :=
  (hexDigits w 12).take 2 ++ [' '] ++ (((hexDigits w 12).drop 2).take 2 ++ [' '] ++ (hexDigits w 12).drop 4)

end Sys2Proof.Machine
end

