-- ==== Sys2Proof/Tests/Slice0.lean ====
section
/-! SUPPORT. Small tests, their expected values taken from the encodings and vectors of the spec
(95_test_vectors.md), and a witness for every statement that has hypotheses. -/

namespace Sys2Proof.Tests

open Sys2Proof Sys2Proof.Machine

/-! ### Ill-formed terms are refused -/

theorem test_wf_rate_zero : (Instr.resetRate 0).wf = false := by decide
theorem test_wf_rate_six : (Instr.resetRate 6).wf = false := by decide
theorem test_wf_cell_ten : (Instr.getCell 10).wf = false := by decide
theorem test_wf_wr_named : (Instr.wr 0x05 9).wf = false := by decide
theorem test_wf_wr_ctrl_one : (Instr.wr 0x00 1).wf = false := by decide
theorem test_wf_rd_named : (Instr.rd 0x2B).wf = false := by decide
theorem test_wf_rd_unmapped : (Instr.rd 0x2C).wf = true := by decide

/-! ### One word per row, written out from the `encoding` column -/

theorem test_word_reset_rate :
    decode 0b000000010000000000000000000000000000000000000101 = .ok (.resetRate 5) := by decide
theorem test_word_reset_dur :
    decode 0b000000100000000000000000000000001001110001000000 = .ok (.resetDur 40000) := by decide
theorem test_word_edge :
    decode 0b000000110000000000000000000000000000010111011100 = .ok (.edge 1500) := by decide
theorem test_word_wr :
    decode 0b000001000001101000000000000000000000000000000101 = .ok (.wr 0x1A 5) := by decide
theorem test_word_rd :
    decode 0b000001011111111100000000000000000000000000000000 = .ok (.rd 0xFF) := by decide
theorem test_word_onsync :
    decode 0b000001000000000000000000000000000000000000000001 = .ok .onsync := by decide
theorem test_word_offsync :
    decode 0b000001000000000000000000000000000000000000000000 = .ok .offsync := by decide
theorem test_word_set_sync :
    decode 0b000001000000010000000000000000000011111111111101 = .ok (.setSync 0x3FFD) := by decide
theorem test_word_wr_short_min :
    decode 0b000001000000010100000000000000000000000010010110 = .ok (.wrShortMin 150) := by decide
theorem test_word_wr_short_max :
    decode 0b000001000000011000000000000000000000000101010100 = .ok (.wrShortMax 340) := by decide
theorem test_word_wr_long_min :
    decode 0b000001000000011100000000000000000000000101010101 = .ok (.wrLongMin 341) := by decide
theorem test_word_wr_long_max :
    decode 0b000001000000100000000000000000000000001000110000 = .ok (.wrLongMax 560) := by decide
theorem test_word_get_ctrl :
    decode 0b000001010000000000000000000000000000000000000000 = .ok .getCtrl := by decide
theorem test_word_get_status :
    decode 0b000001010000000100000000000000000000000000000000 = .ok .getStatus := by decide
theorem test_word_get_rate :
    decode 0b000001010000001000000000000000000000000000000000 = .ok .getRate := by decide
theorem test_word_get_bitdur :
    decode 0b000001010000001100000000000000000000000000000000 = .ok .getBitdur := by decide
theorem test_word_get_sync :
    decode 0b000001010000010000000000000000000000000000000000 = .ok .getSync := by decide
theorem test_word_get_short_min :
    decode 0b000001010000010100000000000000000000000000000000 = .ok .getShortMin := by decide
theorem test_word_get_short_max :
    decode 0b000001010000011000000000000000000000000000000000 = .ok .getShortMax := by decide
theorem test_word_get_long_min :
    decode 0b000001010000011100000000000000000000000000000000 = .ok .getLongMin := by decide
theorem test_word_get_long_max :
    decode 0b000001010000100000000000000000000000000000000000 = .ok .getLongMax := by decide
theorem test_word_get_cell :
    decode 0b000001010001100100000000000000000000000000000000 = .ok (.getCell 9) := by decide
theorem test_word_get_digit :
    decode 0b000001010010011000000000000000000000000000000000 = .ok (.getDigit 6) := by decide
theorem test_word_get_hours :
    decode 0b000001010010100000000000000000000000000000000000 = .ok .getHours := by decide
theorem test_word_get_minutes :
    decode 0b000001010010100100000000000000000000000000000000 = .ok .getMinutes := by decide
theorem test_word_get_seconds :
    decode 0b000001010010101000000000000000000000000000000000 = .ok .getSeconds := by decide
theorem test_word_get_frames :
    decode 0b000001010010101100000000000000000000000000000000 = .ok .getFrames := by decide

/-- The invalid words of V6 and P6. -/
theorem test_words_invalid :
    decode 0x010000000000 = .error .illegalRate ∧ decode 0x010000000007 = .error .illegalRate ∧
    decode 0x01000000000B = .error .nonzeroReserved ∧ decode 0x010100000003 = .error .nonzeroAddr ∧
    decode 0x020100009C40 = .error .nonzeroAddr ∧ decode 0x000000000000 = .error .unassignedOp ∧
    decode 0x060000000000 = .error .unassignedOp ∧ decode 0x050300000001 = .error .nonzeroReserved := by
  decide

theorem test_table_word : decodeTableWord 48 0x030000000000 = some (.edge 0) := by decide

/-! ### Single steps -/

/-- The 25 fps state of the vectors, with the fields a vector sets. -/
def fps25 (half : HalfBitState) (tPrev : Word) (fb : FrameBits) (syncEn : Bool) : State :=
  { State.reset with
    block := { Block.reset with half := half, tPrev := tPrev, fb := fb, syncEn := syncEn } }

/-- The digits of V30's end state. -/
def digits18 : Digits := #v[1, 2, 3, 4, 5, 6, 7, 8]

/-- The 25 fps state with the given digits. -/
def withDigits (d : Digits) : State := { State.reset with block := { Block.reset with digits := d } }

/-- The next state of an outcome. -/
def nextOf : Result → Option State
  | .next s => some s
  | .fault _ => none
  | .refused _ => none

/-- The registers of an outcome's next state. -/
def blockOf (r : Result) : Option Block := (nextOf r).map State.block

/-- What an outcome's next state shows on `h_rdata`. -/
def rdataOf (r : Result) : Option Word := (nextOf r).bind fun s => s.pins.hRdata

/-- `RATE_SEL`, `BIT_DUR` and the windows. -/
def calibration (b : Block) : Nat × Nat × Nat × Nat × Nat × Nat :=
  (b.rateSel.toNat, b.bitDur.toNat, b.shortMin.toNat, b.shortMax.toNat, b.longMin.toNat, b.longMax.toNat)

-- V1, V7
theorem test_reset_rate_25 :
    nextOf (exec (.resetRate 3) (fps25 .halfBitPending 41000 0xBFFC0102030405060708 true)) =
      some State.reset := by decide
-- V2
theorem test_reset_rate_24 :
    (blockOf (exec (.resetRate 2) .reset)).map calibration = some (2, 521, 174, 347, 348, 521) := by
  decide
-- V4: the `r = 1` row, and the widest frame duration
theorem test_reset_dur_41600 :
    (blockOf (exec (.resetDur 41600) .reset)).map calibration = some (0, 520, 173, 347, 348, 520) := by
  decide
theorem test_reset_dur_widest :
    (blockOf (exec (.resetDur 0xFFFFFFFF) .reset)).map calibration =
      some (0, 53687091, 17895697, 35791394, 35791395, 53687091) := by decide
-- V20, second row: `emit(0)` over distinct cells
theorem test_edge_long_idle :
    blockOf (exec (.edge 5500) (fps25 .idle 5000 0x0102030405060708090A true)) =
      some { Block.reset with tPrev := 5500, fb := 0x00810182028303840485, syncEn := true } := by decide
-- V32: the match step, digits and event together
theorem test_edge_match :
    (nextOf (exec (.edge 1250) (fps25 .halfBitPending 1000 0x7FF8020406080A0C0E10 true))).map
      (fun s => (s.block.digits, s.out, s.pins.sync)) =
      some (digits18, [{ digits := digits18 }], true) := by decide
-- V11: overlapping windows, short wins; V13: clock wrap
theorem test_classify_overlap :
    classify { Block.reset with shortMin := 100, shortMax := 400, longMin := 300, longMax := 600 } 350 =
      .short := by decide
theorem test_interval_wrap : intervalOf ltcdec { Block.reset with tPrev := 0xFFFFFF00 } 0xF4 = 500 := by decide
-- V38
theorem test_wr_read_only : nextOf (exec (.wr 0x03 999) .reset) = some State.reset := by decide
theorem test_wr_ctrl : (blockOf (exec (.wr 0x00 0xFFFFFFFE) (fps25 .idle 0 0 true))).map
    (·.syncEn) = some false := by decide
theorem test_onsync : (blockOf (exec .onsync .reset)).map (·.syncEn) = some true := by decide
theorem test_offsync : (blockOf (exec .offsync (fps25 .idle 0 0 true))).map (·.syncEn) = some false := by
  decide
theorem test_set_sync : (blockOf (exec (.setSync 0x1234BFFD) .reset)).map (·.syncPattern) =
    some 0xBFFD := by decide
theorem test_wr_short_min : (blockOf (exec (.wrShortMin 0xFFFFFFFF) .reset)).map calibration =
    some (3, 500, 4294967295, 333, 334, 500) := by decide
theorem test_wr_short_max : (blockOf (exec (.wrShortMax 340) .reset)).map calibration =
    some (3, 500, 167, 340, 334, 500) := by decide
theorem test_wr_long_min : (blockOf (exec (.wrLongMin 341) .reset)).map calibration =
    some (3, 500, 167, 333, 341, 500) := by decide
theorem test_wr_long_max : (blockOf (exec (.wrLongMax 560) .reset)).map calibration =
    some (3, 500, 167, 333, 334, 560) := by decide
-- V36, V37, V39
theorem test_rd_unmapped : rdataOf (exec (.rd 0x1A) .reset) = some 0 := by decide
theorem test_get_ctrl : rdataOf (exec .getCtrl (fps25 .idle 0 0 true)) = some 1 := by decide
theorem test_get_status : rdataOf (exec .getStatus (fps25 .halfBitPending 0 0 false)) = some 1 := by decide
theorem test_get_rate : rdataOf (exec .getRate .reset) = some 3 := by decide
theorem test_get_bitdur : rdataOf (exec .getBitdur .reset) = some 500 := by decide
theorem test_get_sync : rdataOf (exec .getSync .reset) = some 0xBFFC := by decide
theorem test_get_short_min : rdataOf (exec .getShortMin .reset) = some 167 := by decide
theorem test_get_short_max : rdataOf (exec .getShortMax .reset) = some 333 := by decide
theorem test_get_long_min : rdataOf (exec .getLongMin .reset) = some 334 := by decide
theorem test_get_long_max : rdataOf (exec .getLongMax .reset) = some 500 := by decide
theorem test_get_cell_first :
    rdataOf (exec (.getCell 0) (fps25 .idle 0 0xBFFC0102030405060708 true)) = some 0xBF := by decide
theorem test_get_cell_last :
    rdataOf (exec (.getCell 9) (fps25 .idle 0 0xBFFC0102030405060708 true)) = some 8 := by decide
theorem test_get_digit : rdataOf (exec (.getDigit 7) (withDigits digits18)) = some 8 := by decide
theorem test_get_hours :
    rdataOf (exec .getHours (withDigits #v[0x10, 0x00, 0x00, 0x09, 0x0A, 0x01, 0xC8, 0x07])) =
      some 160 := by decide
theorem test_get_minutes :
    rdataOf (exec .getMinutes (withDigits #v[0x10, 0x00, 0x00, 0x09, 0x0A, 0x01, 0xC8, 0x07])) =
      some 9 := by decide
theorem test_get_seconds :
    rdataOf (exec .getSeconds (withDigits #v[0x10, 0x00, 0x00, 0x09, 0x0A, 0x01, 0xC8, 0x07])) =
      some 101 := by decide
theorem test_get_frames :
    rdataOf (exec .getFrames (withDigits #v[0x10, 0x00, 0x00, 0x09, 0x0A, 0x01, 0xC8, 0x07])) =
      some 2007 := by decide
theorem test_get_hours_widest :
    rdataOf (exec .getHours (withDigits #v[0xFF, 0xFF, 0, 0, 0, 0, 0, 0])) = some 2805 := by decide
-- the step from reset: a word presented, and nothing presented
theorem test_step_word :
    rdataOf (step (State.reset.withFetchWord 48 0x050700000000)) = some 334 := by decide
theorem test_step_waits : nextOf (step .reset) = some State.reset := by decide
-- R62: the read of a cycle sees the registers before the cycle's edge and write
theorem test_cycle_read_first :
    rdataOf (step
      { State.reset with
        inputs :=
          [.cycle
            { rst := false, cfgMode := false, cfgSel := 0, cfgDur := 0, edge := true, timeUs := 500
              hWe := true, hRe := true, hAddr := 0x05, hWdata := 7 }] }) = some 167 := by decide

/-! ### Text and trace lines -/

-- V41, V42
theorem test_text_space :
    timecodeText .space #v[2, 3, 5, 9, 5, 9, 2, 4] = "23 59 59 24".toList := by decide
theorem test_text_wide :
    timecodeText .dot #v[16, 0, 0, 9, 10, 1, 200, 7] = "160.09.101.2007".toList := by decide
-- R98
theorem test_line_by_name :
    readLine "WR SHORT_MAX, 340 ; widen".toList = some (.op (.wr 0x06 340)) := by decide
theorem test_line_by_address : readLine "WR 0x06, 340".toList = some (.op (.wr 0x06 340)) := by decide
theorem test_line_cell : readLine "RD CELL9".toList = some (.op (.rd 0x19)) := by decide
theorem test_line_no_cell : readLine "GET_CELL 10".toList = none := by decide
theorem test_listing : listingOf (encode (.edge 1000)) = "03 00 000003E8".toList := by decide
-- R99: `PULSE` counts from the latest edge, and from 0 after a reset
theorem test_pulse_lines :
    expandTrace 9 [.op (.resetRate 3), .pulse 1000, .pulse 250] =
      [.resetRate 3, .edge 1000, .edge 1250] := by decide

/-! ### Witnesses: states and operands that meet the hypotheses of each statement -/

/-- A machine before its first reset operation. -/
def unbuilt : State := { State.reset with constructed := false }

/-- A cycle with a read, an edge and a write, and no reset strobe. -/
def fullCycle : PinCycle :=
  { rst := false, cfgMode := false, cfgSel := 0, cfgDur := 0, edge := true, timeUs := 500
    hWe := true, hRe := true, hAddr := 0x05, hWdata := 7 }

theorem witness_ResetRateConstructsForNamedRate :
    ((1 : BitVec 3), 521) ∈ [((1 : BitVec 3), 521), (2, 521), (3, 500), (4, 417), (5, 417)] ∧
    ((5 : BitVec 3), 417) ∈ [((1 : BitVec 3), 521), (2, 521), (3, 500), (4, 417), (5, 417)] ∧
    ((7 : BitVec 3) = 0 ∨ (7 : BitVec 3) = 6 ∨ (7 : BitVec 3) = 7) := by decide
theorem witness_ResetDurConstructsForDuration : 0 = ((39 : Word).toNat + 40) / 80 := by decide
theorem witness_ConstructedWindowsAreAdjacent_rate :
    ∃ t, exec (.resetRate 5) unbuilt = .next t ∧ 1 ≤ (5 : BitVec 3).toNat ∧ (5 : BitVec 3).toNat ≤ 5 :=
  ⟨_, rfl, by decide⟩
theorem witness_ConstructedWindowsAreAdjacent_dur :
    ∃ t, exec (.resetDur 160) unbuilt = .next t ∧ 2 ≤ t.block.bitDur.toNat := ⟨_, rfl, by decide⟩
theorem witness_BitDurationIsNearestInteger : ∃ t, exec (.resetDur 120) .reset = .next t := ⟨_, rfl⟩
theorem witness_WindowBoundsFollowThirds_zero :
    ∃ t, exec (.resetDur 33333) .reset = .next t ∧ t.block.bitDur.toNat = 3 * 139 + 0 := ⟨_, rfl, by decide⟩
theorem witness_WindowBoundsFollowThirds_one :
    ∃ t, exec (.resetDur 41600) .reset = .next t ∧ t.block.bitDur.toNat = 3 * 173 + 1 := ⟨_, rfl, by decide⟩
theorem witness_WindowBoundsFollowThirds_two :
    ∃ t, exec (.resetDur 40000) .reset = .next t ∧ t.block.bitDur.toNat = 3 * 166 + 2 := ⟨_, rfl, by decide⟩

theorem witness_ShortInIdleStartsHalfBit :
    (fps25 .idle 5000 0 true).Ready ∧ (fps25 .idle 5000 0 true).block.half = .idle ∧
    (167 : Word) ≤ 5167 - 5000 ∧ (5333 : Word) - 5000 ≤ 333 := ⟨rfl, rfl, by decide⟩
theorem witness_LongWhilePendingOnlyResets :
    (fps25 .halfBitPending 5000 0 true).Ready ∧
    ¬ ((167 : Word) ≤ 5334 - 5000 ∧ (5334 : Word) - 5000 ≤ 333) ∧ (334 : Word) ≤ 5334 - 5000 ∧
    (5334 : Word) - 5000 ≤ 500 := ⟨rfl, by decide⟩
theorem witness_UnrecognizedIntervalOnlyMovesTime :
    (fps25 .halfBitPending 5000 0 true).Ready ∧
    ¬ ((167 : Word) ≤ 5501 - 5000 ∧ (5501 : Word) - 5000 ≤ 333) ∧
    ¬ ((334 : Word) ≤ 5501 - 5000 ∧ (5501 : Word) - 5000 ≤ 500) := ⟨rfl, by decide⟩
/-- V22. -/
theorem witness_NoiseRunOnlyMovesTime :
    (fps25 .halfBitPending 1250 0 false).Ready ∧
    List.IsChain
      (fun before now : Word =>
        ¬ ((167 : Word) ≤ now - before ∧ now - before ≤ 333) ∧
        ¬ ((334 : Word) ≤ now - before ∧ now - before ≤ 500))
      [1250, 1350, 9000, 9001] := ⟨rfl, by decide⟩
/-- A second short pulse with no match (V21), with a match and no callback (V33), and with both (V32). -/
theorem witness_EdgeEmitsShiftsComparesExtracts_one :
    (fps25 .halfBitPending 1000 0x7FF8020406080A0C0E10 true).Ready ∧
    ((167 : Word) ≤ 1250 - 1000 ∧ (1250 : Word) - 1000 ≤ 333) ∧
    ((1 : BitVec 1) ++ (0x7FF8020406080A0C0E10 : BitVec 80).extractLsb' 1 79 : BitVec 80).extractLsb' 64 16 =
      Block.reset.syncPattern ∧
    ((1 : BitVec 1) ++ (0x0102030405060708090A : BitVec 80).extractLsb' 1 79 : BitVec 80).extractLsb' 64 16 ≠
      Block.reset.syncPattern ∧
    (fps25 .halfBitPending 1000 0x7FF8020406080A0C0E10 false).block.syncEn = false :=
  ⟨rfl, by decide, by decide, by decide, rfl⟩
/-- A long pulse in `Idle` (V20). -/
theorem witness_EdgeEmitsShiftsComparesExtracts_zero :
    (fps25 .idle 5000 0x0102030405060708090A true).Ready ∧
    (fps25 .idle 5000 0x0102030405060708090A true).block.half = .idle ∧
    ¬ ((167 : Word) ≤ 5500 - 5000 ∧ (5500 : Word) - 5000 ≤ 333) ∧ (334 : Word) ≤ 5500 - 5000 ∧
    (5500 : Word) - 5000 ≤ 500 := ⟨rfl, rfl, by decide⟩
theorem witness_ShiftMovesBitsCellByCell :
    ∃ t, exec (.edge 5250) (fps25 .halfBitPending 5000 0x0102030405060708090A true) = .next t ∧
      (167 : Word) ≤ 5250 - 5000 ∧ (5250 : Word) - 5000 ≤ 333 := ⟨_, rfl, by decide⟩
theorem witness_EdgeLeavesCalibrationAlone :
    ∃ t, exec (.edge 5250) (fps25 .halfBitPending 5000 0x0102030405060708090A true) = .next t := ⟨_, rfl⟩
theorem witness_DigitsChangeOnlyAtMatchOrReset :
    ∃ t, exec (.edge 1250) (fps25 .halfBitPending 1000 0x7FF8020406080A0C0E10 false) = .next t ∧
      t.block.digits ≠ Block.reset.digits := ⟨_, rfl, by decide⟩
theorem witness_OneSyncEventPerMatchAtMost :
    ∃ t, exec (.edge 1250) (fps25 .halfBitPending 1000 0x7FF8020406080A0C0E10 true) = .next t ∧
      t.out.length = 1 := ⟨_, rfl, by decide⟩
theorem witness_DefaultPatternNeverMatchesTwiceRunning :
    ∃ t, exec (.edge 1500) (fps25 .idle 1000 0xBFFC0102030405060708 true) = .next t ∧
      Block.reset.syncPattern = 0xBFFC ∧
      (0xBFFC0102030405060708 : BitVec 80).extractLsb' 64 16 = Block.reset.syncPattern :=
  ⟨_, rfl, by decide⟩
theorem witness_SyncEnableGatesOnlyOutput :
    ∃ t u, exec (.edge 1250) (fps25 .halfBitPending 1000 0x7FF8020406080A0C0E10 true) = .next t ∧
      exec (.edge 1250) (fps25 .halfBitPending 1000 0x7FF8020406080A0C0E10 false) = .next u :=
  ⟨_, _, rfl, rfl⟩

/-- One 0 bit and one 1 bit. -/
def twoBits : List (Word ⊕ (Word × Word)) := [.inl 500, .inr (167, 333)]

/-- 64 zero payload bits and the default sync word in arrival order, `0011 1111 1111 1101` (R84). -/
def emptyFrame : List (Word ⊕ (Word × Word)) :=
  List.replicate 66 (.inl 500) ++ List.replicate 12 (.inr (250, 250)) ++ [.inl 334, .inr (167, 333)]

/-- A pulse whose intervals lie in the 25 fps windows, as the statements ask. -/
def wellTimed : Word ⊕ (Word × Word) → Bool
  | .inl d => !(decide (167 ≤ d) && decide (d ≤ 333)) && decide (334 ≤ d) && decide (d ≤ 500)
  | .inr (a, b) => decide (167 ≤ a) && decide (a ≤ 333) && (decide (167 ≤ b) && decide (b ≤ 333))

theorem wellTimed_zero {d : Word} (h : wellTimed (.inl d) = true) :
    ¬ ((167 : Word) ≤ d ∧ d ≤ 333) ∧ (334 : Word) ≤ d ∧ d ≤ 500 := by
  simp only [wellTimed, Bool.and_eq_true, Bool.not_eq_true', Bool.and_eq_false_iff,
    decide_eq_true_eq, decide_eq_false_iff_not] at h
  exact ⟨fun hs => h.1.1.elim (fun n => n hs.1) (fun n => n hs.2), h.1.2, h.2⟩

theorem wellTimed_one {a b : Word} (h : wellTimed (.inr (a, b)) = true) :
    ((167 : Word) ≤ a ∧ a ≤ 333) ∧ (167 : Word) ≤ b ∧ b ≤ 333 := by
  simpa [wellTimed] using h

theorem twoBits_wellTimed : ∀ x ∈ twoBits, wellTimed x = true := by decide
theorem emptyFrame_wellTimed : ∀ x ∈ emptyFrame, wellTimed x = true := by decide
theorem emptyFrame_syncWord :
    ∀ j : Fin 16, (emptyFrame[64 + j.val]?).map (·.isRight) = some (Config.defaultSync.getLsbD j.val) := by
  decide

theorem witness_LineCodeFillsFrameBuffer :
    State.reset.Ready ∧ State.reset.block.half = .idle ∧
    (∀ d, Sum.inl d ∈ twoBits → ¬ ((167 : Word) ≤ d ∧ d ≤ 333) ∧ (334 : Word) ≤ d ∧ d ≤ 500) ∧
    (∀ a b, Sum.inr (a, b) ∈ twoBits → ((167 : Word) ≤ a ∧ a ≤ 333) ∧ (167 : Word) ≤ b ∧ b ≤ 333) ∧
    twoBits.reverse[1]? = some (.inl 500) :=
  ⟨rfl, rfl, fun _ h => wellTimed_zero (twoBits_wellTimed _ h),
    fun _ _ h => wellTimed_one (twoBits_wellTimed _ h), by decide⟩
theorem witness_FrameLeavesItsPayloadInDigits :
    State.reset.Ready ∧ State.reset.block.half = .idle ∧ emptyFrame.length = 80 ∧
    (∀ d, Sum.inl d ∈ emptyFrame → ¬ ((167 : Word) ≤ d ∧ d ≤ 333) ∧ (334 : Word) ≤ d ∧ d ≤ 500) ∧
    (∀ a b, Sum.inr (a, b) ∈ emptyFrame → ((167 : Word) ≤ a ∧ a ≤ 333) ∧ (167 : Word) ≤ b ∧ b ≤ 333) ∧
    (∀ (j : Nat) (x : Word ⊕ (Word × Word)), j < 16 → emptyFrame[64 + j]? = some x →
      x.isRight = State.reset.block.syncPattern.getLsbD j) :=
  ⟨rfl, rfl, by decide, fun _ h => wellTimed_zero (emptyFrame_wellTimed _ h),
    fun _ _ h => wellTimed_one (emptyFrame_wellTimed _ h), fun j x hj hx => by
      have h := emptyFrame_syncWord ⟨j, hj⟩
      rw [hx] at h
      exact Option.some.inj h⟩

/-- `State.reset` is a ready state: the hypothesis of every statement whose only one it is
(WriteTakesNamedRegister, SetterRowsTakeTheirRegister, CallbackRowsSetTheEnableBit,
WindowSettersSetBothBounds, EveryOperationCompletes, ConstructedMachineNeverStops,
EveryConfigurationNeverStops). -/
theorem witness_Ready : State.reset.Ready := rfl
theorem witness_WriteTakesNamedRegister_elsewhere :
    (0x03 : Byte) ∉ [(0x00 : Byte), 0x04, 0x05, 0x06, 0x07, 0x08] ∧
    (0x09 : Byte) ∉ [(0x00 : Byte), 0x04, 0x05, 0x06, 0x07, 0x08] := by decide
theorem witness_WriteTouchesOnlyItsRegister :
    ∃ t, (Instr.wrShortMax 340).base = .wr 0x06 340 ∧ exec (.wrShortMax 340) .reset = .next t :=
  ⟨_, rfl, rfl⟩
theorem witness_ReadReturnsAddressedRegister :
    ((0x03 : Byte), (500 : Word)) ∈ [((0x03 : Byte), Block.reset.bitDur)] ∧
    (0x19 : Byte) = BitVec.ofNat 8 (0x10 + (9 : Fin 10).val) ∧
    (0x27 : Byte) = BitVec.ofNat 8 (0x20 + (7 : Fin 8).val) ∧
    ((0x09 : Byte) ≤ 0x09 ∧ (0x09 : Byte) ≤ 0x0F) ∧ ((0x1A : Byte) ≤ 0x1F ∧ (0x1F : Byte) ≤ 0x1F) ∧
    (0x2C : Byte) ≤ 0xFF := by decide
theorem witness_AccessorRowsReturnTheirRegister :
    (Instr.getRate, (3 : Word)) ∈ [(Instr.getRate, BitVec.ofNat 32 Block.reset.rateSel.toNat)] ∧
    Instr.getCell 9 = .getCell 9 ∧ (9 : BitVec 4) ≤ 9 ∧ ¬ (10 : BitVec 4) ≤ 9 ∧
    Instr.getDigit 7 = .getDigit 7 := by decide
theorem witness_ReadChangesNothingAndRepeats :
    ∃ t, Instr.getCtrl.base = .rd 0x00 ∧ exec .getCtrl .reset = .next t := ⟨_, rfl, rfl⟩
theorem witness_ReadBackGivesWrittenBits_ctrl :
    ∃ t u, exec (.wr 0x00 3) .reset = .next t ∧ exec (.rd 0x00) t = .next u := ⟨_, _, rfl, rfl⟩
theorem witness_ReadBackGivesWrittenBits_pattern :
    ∃ t u, exec (.wr 0x04 0x1234BFFC) .reset = .next t ∧ exec (.rd 0x04) t = .next u := ⟨_, _, rfl, rfl⟩
theorem witness_ReadBackGivesWrittenBits_window :
    ∃ t u, exec (.wr 0x08 560) .reset = .next t ∧ exec (.rd 0x08) t = .next u ∧
      (0x05 : Byte) ≤ 0x08 ∧ (0x08 : Byte) ≤ 0x08 := ⟨_, _, rfl, rfl, by decide⟩
theorem witness_NoReadRevealsPreviousEdge :
    ∃ t u, Instr.getStatus.base = .rd 0x01 ∧ exec .getStatus .reset = .next t ∧
      exec .getStatus { State.reset with block := { Block.reset with tPrev := 77 } } = .next u :=
  ⟨_, _, rfl, rfl, rfl⟩
theorem witness_UnconstructedOperationsAreRefused :
    unbuilt.constructed = false ∧ (∀ sel, Instr.getCtrl ≠ .resetRate sel) ∧
    (∀ fd, Instr.getCtrl ≠ .resetDur fd) := ⟨rfl, by simp, by simp⟩
theorem witness_OnlyEdgesAndResetsDecode :
    ∃ t, exec (.wrShortMin 9) .reset = .next t ∧ (∀ now, Instr.wrShortMin 9 ≠ .edge now) ∧
      (∀ sel, Instr.wrShortMin 9 ≠ .resetRate sel) ∧ (∀ fd, Instr.wrShortMin 9 ≠ .resetDur fd) :=
  ⟨_, rfl, by simp, by simp, by simp⟩
theorem witness_OnlyResetsWriteConstructionRecord :
    ∃ t, exec (.edge 9) .reset = .next t ∧ (∀ sel, Instr.edge 9 ≠ .resetRate sel) ∧
      (∀ fd, Instr.edge 9 ≠ .resetDur fd) := ⟨_, rfl, by simp, by simp⟩
/-- A state the invariant holds in and whose step does something: the match of V32. -/
theorem witness_StepKeepsInvariant :
    ∃ t, step (presentWord 0x0300000004E2 (fps25 .halfBitPending 1000 0x7FF8020406080A0C0E10 true)) =
        .next t ∧ t.pins.sync = true ∧
      (presentWord 0x0300000004E2 (fps25 .halfBitPending 1000 0x7FF8020406080A0C0E10 true)).Inv := by
  refine ⟨_, rfl, by decide, fun _ => ?_, fun h => ?_⟩
  · unfold Block.CalibrationHeld; decide
  · exact absurd h (by decide)
theorem witness_StepRunsDecodedWord :
    (presentWord 0x050300000000 State.reset).inputs = .word 0x050300000000 :: [] ∧
    decode 0x050300000000 = .ok .getBitdur := ⟨rfl, by decide⟩
theorem witness_StepIgnoresInvalidWordAndWaits :
    (presentWord 0x060000000000 State.reset).inputs = .word 0x060000000000 :: [] ∧
    decode 0x060000000000 = .error .unassignedOp ∧ State.reset.inputs = [] := ⟨rfl, by decide, rfl⟩
theorem witness_CycleOrderIsReadEdgeWrite :
    ∃ u, (State.reset.withInputs [.cycle fullCycle]).Ready ∧ fullCycle.rst = false ∧
      fullCycle.edge = true ∧
      exec (.edge fullCycle.timeUs)
        { State.reset.withInputs [.cycle fullCycle] with
          pins := { hRdata := none, sync := false }, inputs := [] } = .next u :=
  ⟨_, rfl, rfl, rfl, rfl⟩
theorem witness_CycleOrderIsReadEdgeWrite_noEdge :
    (State.reset.withInputs [.cycle { fullCycle with edge := false }]).Ready ∧
    ({ fullCycle with edge := false } : PinCycle).edge = false := ⟨rfl, rfl⟩
theorem witness_ResetCycleSuppressesTheRest :
    ({ fullCycle with rst := true, cfgMode := true } : PinCycle).cfgMode = true ∧
    1 ≤ ({ fullCycle with rst := true, cfgSel := 5 } : PinCycle).cfgSel.toNat ∧
    ({ fullCycle with rst := true, cfgSel := 5 } : PinCycle).cfgSel.toNat ≤ 5 ∧
    ({ fullCycle with rst := true, cfgSel := 6 } : PinCycle).cfgSel = 6 := by decide
theorem witness_DecodeInvertsEncode :
    (Instr.resetRate 5).wf = true ∧ (Instr.wr 0x00 2).wf = true ∧ (Instr.getCell 9).wf = true := by decide
theorem witness_EncodeInvertsDecode : decode 0x040000000002 = .ok (.wr 0x00 2) := by decide
theorem witness_TimecodeTextHasTemplateLength : ∀ k : Fin 8, digits18[k].toNat ≤ 9 := by decide


/-! ### Other values of the parameters of R8 -/

/-- A 16-bit clock. -/
def clock16 : Config := { ltcdec with timeWidth := 16 }

/-- A stimulus word with `data` first and `op` last, and only the code 6 a rate. -/
def otherLayout : Config :=
  { ltcdec with
    splitWord := fun w => { op := w.extractLsb' 0 8, addr := w.extractLsb' 8 8, data := w.extractLsb' 16 32 }
    rateOfSel := fun sel => if sel = 6 then some .fps25 else none }

-- D3: with a 16-bit clock 0xFF00 to 0x00F4 is 500 µs, and the 32-bit operand above it is dropped
theorem test_interval_clock16 :
    intervalOf clock16 { Block.reset with tPrev := 0xFF00 } 0x700F4 = 500 := by decide
-- D7, D19: `RESET_RATE 6` of the other layout constructs with 500 µs
theorem test_step_otherLayout :
    (blockOf (stepIn otherLayout (presentWord 0x000000060001 .reset))).map calibration =
      some (6, 500, 167, 333, 334, 500) := by decide
-- D22, log entry 18 (the model's choice): two inputs in one cycle, in queue order
theorem test_step_two_inputs :
    rdataOf (stepIn { ltcdec with inputsPerCycle := 2 }
      (State.reset.withInputs [.word 0x040500000007, .word 0x050500000000])) = some 7 := by decide

theorem witness_ConstructionFollowsParameters :
    ltcdec.rateOfSel 3 = some .fps25 ∧
    (500 : Word) = timeOf ltcdec (ltcdec.bitDurOfRate .fps25) ∧ ltcdec.rateOfSel 7 = none ∧
    (500 : Word) = timeOf ltcdec (ltcdec.bitDurOfFrame (timeOf ltcdec 40000)) := by decide
/-- 250 µs on a 16-bit clock across its wrap, in the short window of 25 fps. -/
theorem witness_ElapsedTimeBelowWidthIsClassified :
    (fps25 .idle 0xFFF0 0 false).Ready ∧ (fps25 .idle 0xFFF0 0 false).block.half = .idle ∧
    250 < 2 ^ clock16.timeWidth ∧
    (0xEA : Word).toNat % 2 ^ clock16.timeWidth = ((0xFFF0 : Word).toNat + 250) % 2 ^ clock16.timeWidth ∧
    (167 : Word).toNat ≤ 250 ∧ 250 ≤ (333 : Word).toNat := ⟨rfl, rfl, by decide⟩
theorem witness_MatchFollowsCompareConvention :
    ∃ t, execIn ltcdec (.edge 1250) (fps25 .halfBitPending 1000 0x7FF8020406080A0C0E10 true) = .next t ∧
      t.block.digits ≠ Block.reset.digits ∧ t.out ≠ [] := ⟨_, rfl, by decide, by decide⟩
theorem witness_CellZeroLowSwapsThePattern :
    ∃ t, exec (.edge 1250) (fps25 .halfBitPending 1000 0x7FF8020406080A0C0E10 true) = .next t ∧
      (0xFCBF : BitVec 16) = Block.reset.syncPattern.extractLsb' 0 8 ++ Block.reset.syncPattern.extractLsb' 8 8 :=
  ⟨_, rfl, by decide⟩
/-- A map that shifts every register up by 0x40. -/
theorem witness_HostAccessFollowsRegisterMap :
    (fun addr : Byte => regOfAddr (addr - 0x40)) 0x47 = regOfAddr 0x07 := rfl
theorem witness_TimeFieldsFollowPairFunction :
    ltcdec.regOfAddr 0x2B = some .frames ∧
    (HostReg.frames, (7 : Byte), (8 : Byte)) ∈ [(HostReg.frames, digits18[6], digits18[7])] := by decide
/-- Each clause: a code of a rate, a code of none, and the four other operations. -/
theorem witness_StepFollowsWordLayout :
    otherLayout.inputsPerCycle = 1 ∧
    (presentWord 0x000000060001 State.reset).inputs = .word 0x000000060001 :: [] ∧
    (otherLayout.splitWord 0x000000060001 = { op := 0x01, addr := 0, data := (6 : BitVec 3).setWidth 32 } ∧
      otherLayout.rateOfSel 6 = some .fps25) ∧
    (otherLayout.splitWord 0x000000030001 = { op := 0x01, addr := 0, data := (3 : BitVec 3).setWidth 32 } ∧
      otherLayout.rateOfSel 3 = none) ∧
    otherLayout.splitWord 0x00009C400002 = { op := 0x02, addr := 0, data := 40000 } ∧
    otherLayout.splitWord 0x000005DC0003 = { op := 0x03, addr := 0, data := 1500 } ∧
    otherLayout.splitWord 0x000001540604 = { op := 0x04, addr := 0x06, data := 340 } ∧
    otherLayout.splitWord 0x00000000FF05 = { op := 0x05, addr := 0xFF, data := 0 } :=
  ⟨rfl, rfl, by decide⟩
-- R110 on an 8-bit clock: `BIT_DUR` is 500 mod 256 = 244, and the windows follow from 244
theorem test_reset_rate_clock8 :
    (blockOf (execIn { ltcdec with timeWidth := 8 } (.resetRate 3) .reset)).map calibration =
      some (3, 244, 81, 163, 164, 244) := by decide
theorem witness_CycleTakesItsInputs :
    ∃ t, stepIn { ltcdec with inputsPerCycle := 2 }
      (State.reset.withInputs [.word 0x040500000007, .word 0x050500000000]) = .next t := ⟨_, rfl⟩

end Sys2Proof.Tests
end

/-! PROOF. The claims over every value of the parameters of R8 (family `00_scope.md`). First what the
operations of any `Config` do, one lemma per operation, and then the obligations. -/

namespace Sys2Proof.Machine

open Sys2Proof

/-! ### What each operation of any configuration answers -/

section
variable {c : Config} {s : State}

theorem resetRateIn_of_rate {sel : BitVec 3} {r : FrameRate} (h : c.rateOfSel sel = some r) :
    resetRateIn c sel s = .next (construct c sel (c.bitDurOfRate r) s) := by
  simp [resetRateIn, h]

theorem resetRateIn_of_no_rate {sel : BitVec 3} (h : c.rateOfSel sel = none) :
    resetRateIn c sel s = .next s := by
  simp [resetRateIn, h]

theorem edgeIn_of_ready (h : s.Ready) (now : Word) :
    edgeIn c now s = .next (processEdge c now s) := whenConstructed_of_ready h _

theorem writeIn_of_ready (h : s.Ready) (addr : Byte) (data : Word) :
    writeIn c addr data s = .next (s.mapBlock fun b => hostWriteIn c b addr data) :=
  whenConstructed_of_ready h _

theorem readIn_of_ready (h : s.Ready) (addr : Byte) :
    readIn c addr s = .next (s.respond (hostRead c s.block addr)) := whenConstructed_of_ready h _

theorem edgeIn_eq_next {now : Word} {t : State} :
    edgeIn c now s = .next t ↔ s.Ready ∧ processEdge c now s = t := whenConstructed_eq_next

/-- Everything an operation can do: construct, nothing (a code of no rate), an edge, a host write or a
host read (R4). -/
theorem operate_next_cases {op : Operation} {t : State} (h : operate c op s = .next t) :
    (∃ sel bitDur, t = construct c sel bitDur s) ∨
    t = s ∨
    (∃ now, t = processEdge c now s) ∨
    (∃ addr data, t = s.mapBlock fun b => hostWriteIn c b addr data) ∨
    (∃ v, t = s.respond v) := by
  cases op with
  | resetRate sel =>
    change resetRateIn c sel s = .next t at h
    cases hr : c.rateOfSel sel with
    | none => rw [resetRateIn_of_no_rate hr] at h; cases h; exact .inr (.inl rfl)
    | some r => rw [resetRateIn_of_rate hr] at h; cases h; exact .inl ⟨_, _, rfl⟩
  | resetDur fd => cases h; exact .inl ⟨_, _, rfl⟩
  | edge now => exact .inr (.inr (.inl ⟨now, (whenConstructed_eq_next.1 h).2.symm⟩))
  | write addr data =>
    exact .inr (.inr (.inr (.inl ⟨addr, data, (whenConstructed_eq_next.1 h).2.symm⟩)))
  | read addr => exact .inr (.inr (.inr (.inr ⟨_, (whenConstructed_eq_next.1 h).2.symm⟩)))

/-- No operation takes or adds an input (log entries 3 and 8). -/
theorem operate_keeps_inputs {op : Operation} {t : State} (h : operate c op s = .next t) :
    t.inputs = s.inputs := by
  obtain ⟨_, _, rfl⟩ | rfl | ⟨now, rfl⟩ | ⟨_, _, rfl⟩ | ⟨_, rfl⟩ := operate_next_cases h
  · rfl
  · rfl
  · obtain ⟨-, hinputs, -⟩ := processEdge_keeps c now s
    exact hinputs
  · rfl
  · rfl

/-- No operation undoes construction. -/
theorem operate_keeps_ready {op : Operation} {t : State} (hs : s.Ready)
    (h : operate c op s = .next t) : t.Ready := by
  obtain ⟨_, _, rfl⟩ | rfl | ⟨now, rfl⟩ | ⟨_, _, rfl⟩ | ⟨_, rfl⟩ := operate_next_cases h
  · rfl
  · exact hs
  · obtain ⟨hconstructed, -⟩ := processEdge_keeps c now s
    exact hconstructed.trans hs
  · exact hs
  · exact hs

/-- In a constructed block every operation completes (R200). -/
theorem operate_completes (hs : s.Ready) (op : Operation) : ∃ t, operate c op s = .next t := by
  cases op with
  | resetRate sel =>
    cases hr : c.rateOfSel sel with
    | none => exact ⟨_, resetRateIn_of_no_rate hr⟩
    | some r => exact ⟨_, resetRateIn_of_rate hr⟩
  | resetDur fd => exact ⟨_, rfl⟩
  | edge now => exact ⟨_, edgeIn_of_ready hs now⟩
  | write addr data => exact ⟨_, writeIn_of_ready hs addr data⟩
  | read addr => exact ⟨_, readIn_of_ready hs addr⟩

end

/-- `exec` is the parameterised meaning at this hardware's parameters, row by row. -/
theorem exec_eq_execIn (i : Instr) (s : State) : exec i s = execIn ltcdec i s := by
  cases i <;> rfl

/-- The name a decoder gives a row does not matter to its meaning (log entry 4). -/
@[simp] theorem execIn_nameInstr (c : Config) (i : Instr) (s : State) :
    execIn c (nameInstr i) s = execIn c i s := by
  simp [execIn]

/-! ### The decoder and one edge -/

/-- Emitting a bit, or none, leaves `HALF` alone (R150). -/
@[simp] theorem emitIfAny_half (c : Config) (o : Option (BitVec 1)) (s : State) :
    (emitIfAny c o s).block.half = s.block.half := by
  cases o with
  | none => rfl
  | some bit =>
    obtain ⟨-, -, -, hblock⟩ := emit_keeps c bit s
    rw [emitIfAny, hblock]

/-- After an edge `HALF` is what R133's transition gives, whether or not a bit was emitted. -/
theorem processEdge_half (c : Config) (now : Word) (s : State) :
    (processEdge c now s).block.half =
      nextHalf s.block.half (classify s.block (intervalOf c s.block now)) :=
  emitIfAny_half c _ _

/-- From `Idle` only a short interval leads to `HalfBitPending` (R133). -/
theorem nextHalf_idle_eq_pending {k : PulseClass} :
    nextHalf .idle k = .halfBitPending ↔ k = .short := by
  cases k <;> simp [nextHalf]

/-- An edge that changes the digits or `OUT` had a match of the new FrameBuffer (R153). -/
theorem processEdge_match {c : Config} {now : Word} {s : State}
    (h : (processEdge c now s).block.digits ≠ s.block.digits ∨ (processEdge c now s).out ≠ s.out) :
    compareValue c (processEdge c now s).block.fb = s.block.syncPattern := by
  rcases processEdge_cases c now s with ⟨half, e⟩ | ⟨bit, e⟩ <;> rw [e] at h ⊢
  · simp at h
  · rw [emit_fb]
    rcases emit_cases c bit (s.mapBlock fun b => { b with tPrev := timeOf c now, half := .idle }) with
      ⟨-, e'⟩ | ⟨hm, -⟩ | ⟨hm, -⟩
    · simp [e'] at h
    · exact hm
    · exact hm

/-! ### The compare convention with cell 0 low (D11) -/

/-- The two bytes of a pattern exchanged. -/
def swapBytes (p : Half) : Half := p.extractLsb' 0 8 ++ p.extractLsb' 8 8

/-- This hardware but with cell 0 as the low byte of the compare value. -/
def cellZeroLow : Config := { ltcdec with compareOfCells := fun cell0 cell1 => cell1 ++ cell0 }

/-- The state with another sync pattern. -/
def State.withPattern (s : State) (p : Half) : State :=
  s.mapBlock fun b => { b with syncPattern := p }

@[simp] theorem swapBytes_append (hi lo : Byte) : swapBytes (hi ++ lo) = lo ++ hi :=
  congrArg₂ (· ++ ·) BitVec.extractLsb'_append_eq_right BitVec.extractLsb'_append_eq_left

@[simp] theorem swapBytes_swapBytes (p : Half) : swapBytes (swapBytes p) = p :=
  (swapBytes_append _ _).trans BitVec.extractLsb'_append_extractLsb'

theorem swapBytes_inj {p q : Half} : swapBytes p = swapBytes q ↔ p = q :=
  (Function.LeftInverse.injective swapBytes_swapBytes).eq_iff

theorem compareValue_cellZeroLow (fb : FrameBits) :
    compareValue cellZeroLow fb = swapBytes (compareValue ltcdec fb) :=
  (swapBytes_append _ _).symm

theorem syncEvent_withPattern (s : State) (p : Half) :
    syncEvent (s.withPattern p) = (syncEvent s).withPattern p := by
  cases h : s.block.syncEn <;> simp [syncEvent_cases, State.withPattern, State.mapBlock, h]

/-- The exchanged pattern matches exactly where the pattern does, so `emit` commutes with the exchange. -/
theorem emit_cellZeroLow (bit : BitVec 1) (s : State) :
    emit cellZeroLow bit (s.withPattern (swapBytes s.block.syncPattern)) =
      (emit ltcdec bit s).withPattern (swapBytes s.block.syncPattern) := by
  by_cases hm : compareValue ltcdec (shiftIn bit s.block.fb) = s.block.syncPattern
  · have hm' : compareValue cellZeroLow (shiftIn bit s.block.fb) = swapBytes s.block.syncPattern := by
      rw [compareValue_cellZeroLow, hm]
    simp only [emit, State.mapBlock_block, State.withPattern, hm, hm', if_true]
    exact syncEvent_withPattern (s.mapBlock fun b => { b with fb := shiftIn bit b.fb }) _
  · have hm' : compareValue cellZeroLow (shiftIn bit s.block.fb) ≠ swapBytes s.block.syncPattern := by
      rwa [compareValue_cellZeroLow, ne_eq, swapBytes_inj]
    simp only [emit, State.mapBlock_block, State.withPattern, hm, hm', if_false]
    rfl

theorem emitIfAny_cellZeroLow (o : Option (BitVec 1)) (s : State) :
    emitIfAny cellZeroLow o (s.withPattern (swapBytes s.block.syncPattern)) =
      (emitIfAny ltcdec o s).withPattern (swapBytes s.block.syncPattern) := by
  cases o with
  | none => rfl
  | some bit => exact emit_cellZeroLow bit s

/-- One edge commutes with the exchange: the class of the interval reads no pattern. -/
theorem processEdge_cellZeroLow (now : Word) (s : State) :
    processEdge cellZeroLow now (s.withPattern (swapBytes s.block.syncPattern)) =
      (processEdge ltcdec now s).withPattern (swapBytes s.block.syncPattern) :=
  emitIfAny_cellZeroLow _ (s.mapBlock fun b =>
    { b with
      tPrev := timeOf ltcdec now
      half := nextHalf s.block.half (classify s.block (intervalOf ltcdec s.block now)) })

/-! ### Host access by the register map (D17) -/

theorem readReg_regOfAddr (c : Config) (m : Byte → Option HostReg) (b : Block) (r : HostReg) :
    readReg { c with regOfAddr := m } b r = readReg c b r := by
  cases r <;> rfl

theorem writeReg_regOfAddr (c : Config) (m : Byte → Option HostReg) (b : Block) (data : Word)
    (r : HostReg) : writeReg { c with regOfAddr := m } b data r = writeReg c b data r := by
  cases r <;> rfl

section
variable {c : Config} {m : Byte → Option HostReg} {addr other : Byte}
  (h : m addr = c.regOfAddr other)
include h

/-- A read depends on the address only through the register it names (R69, R171). -/
theorem hostRead_congr_register (b : Block) :
    hostRead { c with regOfAddr := m } b addr = hostRead c b other := by
  simp only [hostRead, h]
  cases c.regOfAddr other with
  | none => rfl
  | some r => exact readReg_regOfAddr c m b r

/-- A write depends on the address only through the register it names (R69, R170). -/
theorem hostWriteIn_congr_register (b : Block) (data : Word) :
    hostWriteIn { c with regOfAddr := m } b addr data = hostWriteIn c b other data := by
  simp only [hostWriteIn, h]
  cases c.regOfAddr other with
  | none => rfl
  | some r => exact writeReg_regOfAddr c m b data r

end

theorem hostRead_of_register {c : Config} {addr : Byte} {r : HostReg}
    (h : c.regOfAddr addr = some r) (b : Block) : hostRead c b addr = readReg c b r := by
  simp [hostRead, h]

/-! ### The step of one stimulus word -/

/-- The code in `data[2:0]` of a `RESET_RATE` word, with `data[31:3]` zero, is decoded if it names a
rate (R89, R94). -/
theorem decodeResetRate_setWidth (c : Config) (sel : BitVec 3) :
    decodeResetRate c 0 (sel.setWidth 32) =
      if namesRate c sel then .ok (.resetRate sel) else .error .illegalRate := by
  have hlow : (sel.setWidth 32).extractLsb' 0 3 = sel := by decide +revert
  have hhigh : (sel.setWidth 32).extractLsb' 3 29 = 0 := by decide +revert
  simp [decodeResetRate, hlow, hhigh]

section
variable {c : Config} {w : StimulusWord}

/-- A word is the one row its fields name, or no operation (R92, R94). -/
theorem operations_word_of_ok {i : Instr} (h : decodeFields c (c.splitWord w) = .ok i) :
    (Input.word w).operations c = [nameInstr i] := by
  simp [Input.operations, decodeIn, h, Except.map]

theorem operations_word_of_error {e : InvalidWord} (h : decodeFields c (c.splitWord w) = .error e) :
    (Input.word w).operations c = [] := by
  simp [Input.operations, decodeIn, h, Except.map]

variable {s : State} {rest : List Input} (hone : c.inputsPerCycle = 1)
  (hin : s.inputs = .word w :: rest)
include hone hin

theorem stepIn_of_word :
    stepIn c s =
      performWith (execIn c) ((Input.word w).operations c) (s.beginCycle.withInputs rest) := by
  rw [stepIn, advance_of_one hone, hin]

theorem stepIn_of_valid_word {i : Instr} (h : decodeFields c (c.splitWord w) = .ok i) :
    stepIn c s = execIn c i (s.beginCycle.withInputs rest) := by
  rw [stepIn_of_word hone hin, operations_word_of_ok h, performWith_singleton, execIn_nameInstr]

theorem stepIn_of_invalid_word {e : InvalidWord} (h : decodeFields c (c.splitWord w) = .error e) :
    stepIn c s = .next (s.beginCycle.withInputs rest) := by
  rw [stepIn_of_word hone hin, operations_word_of_error h, performWith_nil]

/-- A `RESET_RATE` word steps as performing its term, whether or not the code names a rate (log entry 9). -/
theorem stepIn_of_resetRate_word {sel : BitVec 3}
    (h : c.splitWord w = { op := 0x01, addr := 0, data := sel.setWidth 32 }) :
    stepIn c s = execIn c (.resetRate sel) (s.beginCycle.withInputs rest) := by
  have hd : decodeFields c (c.splitWord w) =
      if namesRate c sel then .ok (.resetRate sel) else .error .illegalRate := by
    rw [h, ← decodeResetRate_setWidth]; rfl
  cases hr : c.rateOfSel sel with
  | none =>
    have hd' := hd.trans (if_neg (by simp [namesRate, hr]))
    exact (stepIn_of_invalid_word hone hin hd').trans (resetRateIn_of_no_rate hr).symm
  | some r =>
    exact stepIn_of_valid_word hone hin (hd.trans (if_pos (by simp [namesRate, hr])))

end

/-! ### The obligations -/

/-- Settles O50: every operation completes and keeps the block constructed, so every list of them does. -/
theorem everyConfigurationNeverStops : Obligations.EveryConfigurationNeverStops := by
  intro c s hs
  refine performWith_completes (P := State.Ready) (fun i s hs => ?_) _ _ hs
  obtain ⟨t, ht⟩ := operate_completes hs i.operation
  exact ⟨t, ht, operate_keeps_ready hs ht⟩

/-- Settles O52: the interval is the elapsed time, and from `Idle` only the class `S` leads to
`HalfBitPending`. -/
theorem elapsedTimeBelowWidthIsClassified : Obligations.ElapsedTimeBelowWidthIsClassified := by
  intro c now elapsed s hready hidle hlt hnow
  have hi : intervalOf c s.block now = elapsed := intervalOf_eq hnow hlt
  have hexec : execIn c (.edge now) s = .next (processEdge c now s) := edgeIn_of_ready hready now
  rw [hexec, ← classify_eq_short, ← hi]
  constructor
  · intro h
    have hhalf := processEdge_half c now s
    rw [Host.Outcome.next.inj h, hidle] at hhalf
    exact nextHalf_idle_eq_pending.1 hhalf.symm
  · intro hshort
    rw [processEdge_of_class hshort, hidle]; rfl

/-- Settles O53: without a match of the new FrameBuffer an edge writes neither the digits nor `OUT`. -/
theorem matchFollowsCompareConvention : Obligations.MatchFollowsCompareConvention := by
  intro c now s t ht hchanged
  obtain ⟨-, rfl⟩ := edgeIn_eq_next.1 ht
  exact processEdge_match hchanged

/-- Settles O54: the edge commutes with exchanging the bytes of the pattern. -/
theorem cellZeroLowSwapsThePattern : Obligations.CellZeroLowSwapsThePattern := by
  intro now p s t hp ht
  obtain ⟨hready, rfl⟩ := edgeIn_eq_next.1 ht
  subst hp
  exact edgeIn_eq_next.2 ⟨hready, processEdge_cellZeroLow now s⟩

/-- Settles O57: the decoder finds the operation the fields name, and its row's name keeps the meaning. -/
theorem stepFollowsWordLayout : Obligations.StepFollowsWordLayout := by
  intro c w rest i f s hone hin hf hop
  subst hf
  rcases hop with ⟨sel, hf, rfl⟩ | ⟨hf, rfl⟩ | ⟨hf, rfl⟩ | ⟨hf, rfl⟩ | ⟨hf, rfl⟩
  · exact stepIn_of_resetRate_word hone hin hf
  all_goals exact stepIn_of_valid_word hone hin (by rw [hf]; rfl)

/-- Settles O58: the cycle starts with the inputs it does not take, and no operation changes them. -/
theorem cycleTakesItsInputs : Obligations.CycleTakesItsInputs := by
  intro c s t ht
  exact performWith_keeps (P := fun u => u.inputs = s.inputs.drop c.inputsPerCycle)
    (fun i u v hu hv => (operate_keeps_inputs hv).trans hu) _ rfl ht

/-- Settles O49: the meanings agree row by row, and so do the steps that perform them. -/
theorem hardwareIsOneConfiguration : Obligations.HardwareIsOneConfiguration := by
  refine ⟨exec_eq_execIn, fun s => ?_⟩
  have hexec : exec = execIn ltcdec := funext₂ exec_eq_execIn
  simp only [step, stepIn, hexec]

/-- Settles O51: a code of no rate does nothing, and the other cases construct from the bit duration as
written. -/
theorem constructionFollowsParameters : Obligations.ConstructionFollowsParameters := by
  intro c sel r fd bitDur s
  refine ⟨resetRateIn_of_no_rate, ?_, ?_⟩
  · rintro ⟨hr, rfl⟩
    exact resetRateIn_of_rate hr
  · rintro rfl
    rfl

/-- Settles O55: reads and writes depend on the address only through the register it names. -/
theorem hostAccessFollowsRegisterMap : Obligations.HostAccessFollowsRegisterMap := by
  intro m addr other data s h
  have h' : m addr = ltcdec.regOfAddr other := h
  constructor
  · change readIn _ addr s = readIn ltcdec other s
    simp only [readIn, hostRead_congr_register h']
  · change writeIn _ addr data s = writeIn ltcdec other data s
    simp only [writeIn, hostWriteIn_congr_register h']

/-- Settles O56: the four time fields, one by one. -/
theorem timeFieldsFollowPairFunction : Obligations.TimeFieldsFollowPairFunction := by
  intro c addr r a b s hready hreg hmem
  have hval : readReg c s.block r = (c.pairToInt a b).setWidth 32 := by
    simp only [List.mem_cons, Prod.mk.injEq, List.not_mem_nil, or_false] at hmem
    rcases hmem with ⟨rfl, rfl, rfl⟩ | ⟨rfl, rfl, rfl⟩ | ⟨rfl, rfl, rfl⟩ | ⟨rfl, rfl, rfl⟩ <;> rfl
  rw [← hval, ← hostRead_of_register hreg]
  exact readIn_of_ready hready addr

end Sys2Proof.Machine

/-! PROOF. The claims about the state as a whole (family `10_state.md`): the invariant of a step, what
`SYNC_EN` and `T_PREV` do not influence, and the step of one word. First the lemmas, then the obligations. -/

namespace Sys2Proof.Machine

open Sys2Proof

/-! ### An instruction by the operation it stands for -/

theorem exec_eq_operate (i : Instr) (s : State) : exec i s = operate ltcdec i.operation s :=
  exec_eq_execIn i s

/-- A row whose base is a read stands for that read (R99). -/
theorem operation_eq_read {i : Instr} {addr : Byte} (h : i.base = .rd addr) :
    i.operation = .read addr := by
  unfold Instr.base at h
  cases hop : i.operation <;> simp_all [Operation.instr]

theorem readIn_eq_next {c : Config} {addr : Byte} {s t : State} :
    readIn c addr s = .next t ↔ s.Ready ∧ s.respond (hostRead c s.block addr) = t :=
  whenConstructed_eq_next

theorem writeIn_eq_next {c : Config} {addr : Byte} {data : Word} {s t : State} :
    writeIn c addr data s = .next t ↔
      s.Ready ∧ (s.mapBlock fun b => hostWriteIn c b addr data) = t :=
  whenConstructed_eq_next

/-! ### Lists of operations in phases -/

section
variable {run : Instr → State → Result}

theorem performWith_append_eq_next {xs ys : List Instr} {s t : State} :
    performWith run (xs ++ ys) s = .next t ↔
      ∃ u, performWith run xs s = .next u ∧ performWith run ys u = .next t := by
  induction xs generalizing s with
  | nil => simp
  | cons i rest ih =>
    simp only [List.cons_append, performWith_cons_eq_next, ih]
    exact ⟨fun ⟨v, hv, u, hu, ht⟩ => ⟨u, ⟨v, hv, hu⟩, ht⟩,
      fun ⟨u, ⟨v, hv, hu⟩, ht⟩ => ⟨v, hv, u, hu, ht⟩⟩

/-- What every operation of the list keeps, the list keeps. -/
theorem performWith_keeps_of_mem {P : State → Prop} {xs : List Instr} {s t : State}
    (h : ∀ i ∈ xs, ∀ s t, P s → run i s = .next t → P t) (hs : P s)
    (ht : performWith run xs s = .next t) : P t := by
  induction xs generalizing s with
  | nil => cases ht; exact hs
  | cons i rest ih =>
    obtain ⟨u, hu, ht⟩ := performWith_cons_eq_next.1 ht
    exact ih (fun j hj => h j (List.mem_cons_of_mem i hj)) (h i List.mem_cons_self s u hs hu) ht

end

/-- The fixed order inside one cycle: reads, then at most one operation of another kind, then writes
(R62). A reset operation and the operation of a word stand alone in the middle. -/
theorem operations_in_order (c : Config) (inp : Input) :
    ∃ (reads : List Instr) (mid : Option Instr) (writes : List Instr),
      inp.operations c = reads ++ mid.toList ++ writes ∧
      (∀ i ∈ reads, ∃ addr, i = .rd addr) ∧ (∀ i ∈ writes, ∃ addr data, i = .wr addr data) := by
  cases inp with
  | word w =>
    cases hd : decodeIn c w with
    | ok i => exact ⟨[], some i, [], by simp [Input.operations, hd], by simp, by simp⟩
    | error e => exact ⟨[], none, [], by simp [Input.operations, hd], by simp, by simp⟩
  | cycle p =>
    cases hr : p.resetOp c with
    | some i =>
      exact ⟨[], some i, [], by simp [Input.operations, PinCycle.operations, hr], by simp, by simp⟩
    | none =>
      refine ⟨if p.hRe then [.rd p.hAddr] else [], if p.edge then some (.edge p.timeUs) else none,
        if p.hWe then [.wr p.hAddr p.hWdata] else [], ?_, by simp, by simp⟩
      cases he : p.edge <;> simp [Input.operations, PinCycle.operations, hr, he]

/-! ### The calibration record -/

/-- The record is `RATE_SEL` and `BIT_DUR` (R29): what leaves these two alone keeps it. -/
theorem Block.CalibrationHeld.congr {b b' : Block} (h : b.CalibrationHeld)
    (hrate : b'.rateSel = b.rateSel) (hdur : b'.bitDur = b.bitDur) : b'.CalibrationHeld := by
  simpa only [Block.CalibrationHeld, hrate, hdur] using h

/-- The five codes of a named rate with their bit durations (R86, R113). -/
theorem bitDurOfRate_of_rateOfSel : ∀ sel : BitVec 3, ∀ r ∈ rateOfSel sel,
    (sel, bitDurOfRate r) ∈
      [((1, 521) : BitVec 3 × Word), (2, 521), (3, 500), (4, 417), (5, 417)] := by
  decide

theorem bitDurOfFrame_le (fd : Word) : (bitDurOfFrame fd).toNat ≤ 53687091 := by
  have := fd.isLt
  simp only [bitDurOfFrame, BitVec.toNat_ofNat]
  omega

theorem calibrationHeld_of_rate {sel : BitVec 3} {r : FrameRate} (h : rateOfSel sel = some r) :
    (constructBlock ltcdec sel (bitDurOfRate r)).CalibrationHeld := by
  have hmem := bitDurOfRate_of_rateOfSel sel r h
  rw [constructBlock_ltcdec]
  generalize bitDurOfRate r = bitDur at hmem ⊢
  simp only [List.mem_cons, Prod.mk.injEq, List.not_mem_nil, or_false] at hmem
  rcases hmem with ⟨rfl, rfl⟩ | ⟨rfl, rfl⟩ | ⟨rfl, rfl⟩ | ⟨rfl, rfl⟩ | ⟨rfl, rfl⟩ <;>
    simp [Block.CalibrationHeld]

theorem calibrationHeld_of_frame (fd : Word) :
    (constructBlock ltcdec 0 (bitDurOfFrame fd)).CalibrationHeld := by
  rw [constructBlock_ltcdec]
  simp [Block.CalibrationHeld, bitDurOfFrame_le]

/-- Once constructed, the calibration record is legal: the first clause of `State.Inv`. -/
def State.CalibrationLegal (s : State) : Prop := s.constructed = true → s.block.CalibrationHeld

/-- Only construction writes the calibration record, and it writes a legal one (R29, R112). -/
theorem exec_keeps_calibrationLegal (i : Instr) (s t : State) (hs : s.CalibrationLegal)
    (h : exec i s = .next t) : t.CalibrationLegal := by
  rw [exec_eq_operate] at h
  generalize i.operation = op at h
  cases op with
  | resetRate sel =>
    change resetRateIn ltcdec sel s = .next t at h
    cases hr : rateOfSel sel with
    | none => rw [resetRateIn_of_no_rate hr] at h; cases h; exact hs
    | some r => rw [resetRateIn_of_rate hr] at h; cases h; exact fun _ => calibrationHeld_of_rate hr
  | resetDur fd =>
    obtain rfl := Host.Outcome.next.inj ((execResetDur_ltcdec fd s).symm.trans h)
    exact fun _ => calibrationHeld_of_frame fd
  | edge now =>
    obtain ⟨hready, rfl⟩ := edgeIn_eq_next.1 h
    obtain ⟨-, -, -, hblock⟩ := processEdge_keeps ltcdec now s
    exact fun _ => (hs hready).congr (by rw [hblock]) (by rw [hblock])
  | write addr data =>
    obtain ⟨hready, rfl⟩ := writeIn_eq_next.1 h
    obtain ⟨-, -, -, -, hrate, hdur⟩ := hostWriteIn_keeps ltcdec s.block addr data
    exact fun _ => (hs hready).congr hrate hdur
  | read addr =>
    obtain ⟨hready, rfl⟩ := readIn_eq_next.1 h
    exact fun _ => hs hready

/-! ### The pulse

An operation alone does not keep `PulseShowsDigits`: a second edge in a cycle, or a reset after an edge,
would break it. A cycle starts with `sync` low and has at most one edge or reset (R62). -/

theorem pulseShowsDigits_of_low {s : State} (h : s.pins.sync = false) : s.PulseShowsDigits := by
  simp [State.PulseShowsDigits, h]

/-- A bit emitted with `sync` low raises it only with an event that carries the new digits (R157). -/
theorem emit_pulseShowsDigits (c : Config) (bit : BitVec 1) {s : State} (hs : s.pins.sync = false) :
    (emit c bit s).PulseShowsDigits := by
  rcases emit_cases c bit s with ⟨-, h⟩ | ⟨-, -, h⟩ | ⟨-, -, h⟩ <;> rw [h]
  · exact pulseShowsDigits_of_low hs
  · exact pulseShowsDigits_of_low hs
  · simp [State.PulseShowsDigits]

theorem processEdge_pulseShowsDigits (c : Config) (now : Word) {s : State} (hs : s.pins.sync = false) :
    (processEdge c now s).PulseShowsDigits := by
  rcases processEdge_cases c now s with ⟨half, h⟩ | ⟨bit, h⟩ <;> rw [h]
  · exact pulseShowsDigits_of_low hs
  · exact emit_pulseShowsDigits c bit hs

/-- Any one operation performed with `sync` low. -/
theorem exec_pulseShowsDigits_of_low {i : Instr} {s t : State} (hs : s.pins.sync = false)
    (h : exec i s = .next t) : t.PulseShowsDigits := by
  rw [exec_eq_operate] at h
  obtain ⟨_, _, rfl⟩ | rfl | ⟨now, rfl⟩ | ⟨_, _, rfl⟩ | ⟨_, rfl⟩ := operate_next_cases h
  · exact pulseShowsDigits_of_low hs
  · exact pulseShowsDigits_of_low hs
  · exact processEdge_pulseShowsDigits ltcdec now hs
  · exact pulseShowsDigits_of_low hs
  · exact pulseShowsDigits_of_low hs

theorem exec_rd_keeps_sync {addr : Byte} {s t : State} (h : exec (.rd addr) s = .next t) :
    t.pins.sync = s.pins.sync := by
  obtain ⟨-, rfl⟩ := readIn_eq_next.1 h
  rfl

/-- A host write touches neither `sync` nor `OUT` nor the digits (R67, R170). -/
theorem exec_wr_keeps_pulseShowsDigits {addr : Byte} {data : Word} {s t : State}
    (hs : s.PulseShowsDigits) (h : exec (.wr addr data) s = .next t) : t.PulseShowsDigits := by
  obtain ⟨-, rfl⟩ := writeIn_eq_next.1 h
  obtain ⟨-, -, -, hdigits, -⟩ := hostWriteIn_keeps ltcdec s.block addr data
  simpa only [State.PulseShowsDigits, State.mapBlock_pins, State.mapBlock_out, State.mapBlock_block,
    hdigits] using hs

/-- The operations of one input, performed from `sync` low: the reads keep it low, the operation in the
middle may raise it with its event, and the writes leave both. -/
theorem perform_operations_pulseShowsDigits {inp : Input} {s t : State} (hs : s.pins.sync = false)
    (h : perform (inp.operations ltcdec) s = .next t) : t.PulseShowsDigits := by
  obtain ⟨reads, mid, writes, hops, hreads, hwrites⟩ := operations_in_order ltcdec inp
  rw [perform, hops] at h
  obtain ⟨v, hv, ht⟩ := performWith_append_eq_next.1 h
  obtain ⟨u, hu, hv⟩ := performWith_append_eq_next.1 hv
  have hlow : u.pins.sync = false := by
    refine performWith_keeps_of_mem (P := fun s => s.pins.sync = false)
      (fun i hi s t hs h => ?_) hs hu
    obtain ⟨addr, rfl⟩ := hreads i hi
    exact (exec_rd_keeps_sync h).trans hs
  have hpulse : v.PulseShowsDigits := by
    cases mid with
    | none => cases hv; exact pulseShowsDigits_of_low hlow
    | some i => exact exec_pulseShowsDigits_of_low hlow ((perform_singleton i u).symm.trans hv)
  refine performWith_keeps_of_mem (fun i hi s t hs h => ?_) hpulse ht
  obtain ⟨addr, data, rfl⟩ := hwrites i hi
  exact exec_wr_keeps_pulseShowsDigits hs h

/-! ### `SYNC_EN` and the registers an edge leaves -/

/-- The state with another `SYNC_EN`. -/
def State.withSyncEn (s : State) (e : Bool) : State := s.mapBlock fun b => { b with syncEn := e }

/-- The registers after a sync event: the digits, with and without the callback (R155, R156). -/
theorem syncEvent_block (s : State) :
    (syncEvent s).block = { s.block with digits := digitsOf s.block.fb } := by
  cases h : s.block.syncEn <;> simp [syncEvent_cases, h]

theorem emit_block (c : Config) (bit : BitVec 1) (s : State) :
    (emit c bit s).block =
      if compareValue c (shiftIn bit s.block.fb) = s.block.syncPattern then
        { s.block with fb := shiftIn bit s.block.fb, digits := digitsOf (shiftIn bit s.block.fb) }
      else { s.block with fb := shiftIn bit s.block.fb } := by
  rcases emit_cases c bit s with ⟨hm, h⟩ | ⟨hm, -, h⟩ | ⟨hm, -, h⟩ <;> simp [h, hm]

theorem emit_withSyncEn_block (c : Config) (bit : BitVec 1) (s : State) (e : Bool) :
    (emit c bit (s.withSyncEn e)).block = { (emit c bit s).block with syncEn := e } := by
  by_cases hm : compareValue c (shiftIn bit s.block.fb) = s.block.syncPattern <;>
    simp [emit_block, State.withSyncEn, hm]

theorem emitIfAny_withSyncEn_block (c : Config) (o : Option (BitVec 1)) (s : State) (e : Bool) :
    (emitIfAny c o (s.withSyncEn e)).block = { (emitIfAny c o s).block with syncEn := e } := by
  cases o with
  | none => rfl
  | some bit => exact emit_withSyncEn_block c bit s e

/-- The class of the interval reads no `SYNC_EN` (R132), and neither does the shift or the extraction. -/
theorem processEdge_withSyncEn_block (c : Config) (now : Word) (s : State) (e : Bool) :
    (processEdge c now (s.withSyncEn e)).block = { (processEdge c now s).block with syncEn := e } :=
  emitIfAny_withSyncEn_block c _ (s.mapBlock fun b =>
    { b with
      tPrev := timeOf c now
      half := nextHalf s.block.half (classify s.block (intervalOf c s.block now)) }) e

/-! ### The obligations -/

/-- Settles O36: every operation keeps the calibration record legal, and the order inside a cycle keeps
the pulse truthful. -/
theorem stepKeepsInvariant : Obligations.StepKeepsInvariant := by
  rintro s t ⟨hcal, -⟩ h
  rw [step_eq] at h
  cases hin : s.inputs with
  | nil =>
    rw [hin] at h
    cases h
    exact ⟨hcal, pulseShowsDigits_of_low rfl⟩
  | cons inp rest =>
    rw [hin] at h
    have hcal' : (s.beginCycle.withInputs rest).CalibrationLegal := hcal
    exact ⟨performWith_keeps exec_keeps_calibrationLegal _ hcal' h,
      perform_operations_pulseShowsDigits rfl h⟩

/-- Settles O17: setting `SYNC_EN` before the edge is setting it in the registers the edge leaves. -/
theorem syncEnableGatesOnlyOutput : Obligations.SyncEnableGatesOnlyOutput := by
  intro now e s t u ht hu
  obtain ⟨-, rfl⟩ := edgeIn_eq_next.1 ht
  obtain ⟨-, rfl⟩ := edgeIn_eq_next.1 hu
  exact processEdge_withSyncEn_block ltcdec now s e

/-- Settles O29: a read answers with a register's value, and no register is `T_PREV`. -/
theorem noReadRevealsPreviousEdge : Obligations.NoReadRevealsPreviousEdge := by
  intro i addr x s t u hbase ht hu
  rw [exec_eq_operate, operation_eq_read hbase] at ht hu
  obtain ⟨-, rfl⟩ := readIn_eq_next.1 ht
  obtain ⟨-, rfl⟩ := readIn_eq_next.1 hu
  rw [hostRead_tPrev]
  exact ⟨rfl, rfl⟩

/-- Settles O38: a valid word presents its one instruction. -/
theorem stepRunsDecodedWord : Obligations.StepRunsDecodedWord := by
  intro w i rest s hin hw
  have hd : decodeIn ltcdec w = .ok i := hw
  have hops : (Input.word w).operations ltcdec = [i] := by simp [Input.operations, hd]
  rw [step_eq, hin]
  exact (congrArg (perform · _) hops).trans (perform_singleton i _)

end Sys2Proof.Machine

/-! PROOF. The claims about the order of a cycle and about who writes a register (family
`20_memory.md`). First which operation a row stands for, what a write leaves unchanged and
how the phases of a cycle compose, and then the obligations. -/

namespace Sys2Proof.Machine

open Sys2Proof

/-! ### The rows of one operation -/

/-- A row whose base is a write stands for that write (R99). -/
theorem operation_eq_write {i : Instr} {addr : Byte} {data : Word} (h : i.base = .wr addr data) :
    i.operation = .write addr data := by
  unfold Instr.base at h
  cases hop : i.operation <;> simp_all [Operation.instr]

section
variable {i : Instr}

/-! The reset operations and `EDGE` have one row each (R100). -/

theorem operation_eq_resetRate {sel : BitVec 3} :
    i.operation = .resetRate sel ↔ i = .resetRate sel := by
  cases i <;> simp [Instr.operation]

theorem operation_eq_resetDur {fd : Word} : i.operation = .resetDur fd ↔ i = .resetDur fd := by
  cases i <;> simp [Instr.operation]

theorem operation_eq_edge {now : Word} : i.operation = .edge now ↔ i = .edge now := by
  cases i <;> simp [Instr.operation]

/-- Every row but `EDGE` and the reset operations is a host write or a host read (R4). -/
theorem exec_host_access {s t : State} (h : exec i s = .next t) (hedge : ∀ now, i ≠ .edge now)
    (hrate : ∀ sel, i ≠ .resetRate sel) (hdur : ∀ fd, i ≠ .resetDur fd) :
    (∃ addr data, t = s.mapBlock fun b => hostWriteIn ltcdec b addr data) ∨ ∃ v, t = s.respond v := by
  rw [exec_eq_operate] at h
  cases hop : i.operation with
  | resetRate sel => exact absurd (operation_eq_resetRate.1 hop) (hrate sel)
  | resetDur fd => exact absurd (operation_eq_resetDur.1 hop) (hdur fd)
  | edge now => exact absurd (operation_eq_edge.1 hop) (hedge now)
  | write addr data =>
    rw [hop] at h
    exact .inl ⟨addr, data, (writeIn_eq_next.1 h).2.symm⟩
  | read addr =>
    rw [hop] at h
    exact .inr ⟨_, (readIn_eq_next.1 h).2.symm⟩

end

/-! ### What a host write leaves unchanged -/

/-- A write to another address keeps a writable register (R67, R170). -/
theorem hostWrite_keeps_other_registers (b : Block) (addr : Byte) (data : Word) :
    (addr ≠ 0x00 → (hostWrite b addr data).syncEn = b.syncEn) ∧
    (addr ≠ 0x04 → (hostWrite b addr data).syncPattern = b.syncPattern) ∧
    (addr ≠ 0x05 → (hostWrite b addr data).shortMin = b.shortMin) ∧
    (addr ≠ 0x06 → (hostWrite b addr data).shortMax = b.shortMax) ∧
    (addr ≠ 0x07 → (hostWrite b addr data).longMin = b.longMin) ∧
    (addr ≠ 0x08 → (hostWrite b addr data).longMax = b.longMax) := by
  rcases hostWrite_cases b addr data with
    ⟨ha, h⟩ | ⟨ha, h⟩ | ⟨ha, h⟩ | ⟨ha, h⟩ | ⟨ha, h⟩ | ⟨ha, h⟩ | h <;> simp [*]

/-! ### The read data of a cycle

No operation reads `h_rdata`, so the edge of a cycle commutes with the read before it. -/

/-- The state with `d` on `h_rdata`. -/
def State.withRdata (s : State) (d : Option Word) : State :=
  { s with pins := { s.pins with hRdata := d } }

section
variable (c : Config) (s : State) (d : Option Word)

@[simp] theorem State.withRdata_block : (s.withRdata d).block = s.block := rfl

theorem State.mapBlock_withRdata (f : Block → Block) :
    (s.withRdata d).mapBlock f = (s.mapBlock f).withRdata d := rfl

theorem syncEvent_withRdata : syncEvent (s.withRdata d) = (syncEvent s).withRdata d := by
  cases he : s.block.syncEn <;> simp [syncEvent_cases, State.withRdata, he]

theorem emit_withRdata (bit : BitVec 1) : emit c bit (s.withRdata d) = (emit c bit s).withRdata d := by
  by_cases hm : compareValue c (shiftIn bit s.block.fb) = s.block.syncPattern <;>
    simp [emit, State.mapBlock_withRdata, syncEvent_withRdata, hm]

theorem processEdge_withRdata (now : Word) :
    processEdge c now (s.withRdata d) = (processEdge c now s).withRdata d := by
  simp only [processEdge, State.mapBlock_withRdata, State.withRdata_block]
  cases emittedBit s.block.half (classify s.block (intervalOf c s.block now)) with
  | none => rfl
  | some bit => exact emit_withRdata c _ d bit

end

/-! ### The phases of a cycle -/

/-- The state after the edge of a cycle, if it has one. -/
def edgePhase (p : PinCycle) (s : State) : State :=
  if p.edge then processEdge ltcdec p.timeUs s else s

theorem edgePhase_withRdata (p : PinCycle) (s : State) (d : Option Word) :
    edgePhase p (s.withRdata d) = (edgePhase p s).withRdata d := by
  unfold edgePhase
  cases p.edge with
  | false => rfl
  | true => exact processEdge_withRdata ltcdec s d p.timeUs

/-- An operation that a cycle presents or not. -/
theorem perform_if_of_next {i : Instr} {s t : State} (h : exec i s = .next t) (present : Bool) :
    perform (if present then [i] else []) s = .next (if present then t else s) := by
  cases present with
  | false => rfl
  | true => exact (perform_singleton i s).trans h

section
variable {s : State} (hs : s.Ready)
include hs

theorem exec_rd_of_ready (addr : Byte) :
    exec (.rd addr) s = .next (s.respond (hostRead ltcdec s.block addr)) := readIn_of_ready hs addr

theorem exec_edge_of_ready (now : Word) : exec (.edge now) s = .next (processEdge ltcdec now s) :=
  edgeIn_of_ready hs now

theorem exec_wr_of_ready (addr : Byte) (data : Word) :
    exec (.wr addr data) s = .next (s.mapBlock fun b => hostWrite b addr data) :=
  performWrite_of_ready hs addr data

theorem edgePhase_ready (p : PinCycle) : (edgePhase p s).Ready := by
  unfold edgePhase
  obtain ⟨hconstructed, -⟩ := processEdge_keeps ltcdec p.timeUs s
  cases p.edge with
  | false => exact hs
  | true => exact hconstructed.trans hs

theorem perform_read_phase (p : PinCycle) (hlow : s.pins.hRdata = none) :
    perform (if p.hRe then [.rd p.hAddr] else []) s =
      .next (s.withRdata (if p.hRe then some (hostRead ltcdec s.block p.hAddr) else none)) := by
  rw [perform_if_of_next (exec_rd_of_ready hs p.hAddr)]
  cases p.hRe with
  | false => rw [← hlow]; rfl
  | true => rfl

theorem perform_edge_phase (p : PinCycle) :
    perform (if p.edge then [.edge p.timeUs] else []) s = .next (edgePhase p s) :=
  perform_if_of_next (exec_edge_of_ready hs p.timeUs) p.edge

theorem perform_write_phase (p : PinCycle) :
    perform (if p.hWe then [.wr p.hAddr p.hWdata] else []) s =
      .next (s.mapBlock fun b => if p.hWe then hostWrite b p.hAddr p.hWdata else b) := by
  rw [perform_if_of_next (exec_wr_of_ready hs p.hAddr p.hWdata)]
  cases p.hWe <;> rfl

end

/-! ### The operations of a cycle -/

section
variable {c : Config} {p : PinCycle}

theorem resetOp_of_rst_low (h : p.rst = false) : p.resetOp c = none := by
  simp [PinCycle.resetOp, h]

theorem resetOp_of_dur (hrst : p.rst = true) (hmode : p.cfgMode = true) :
    p.resetOp c = some (.resetDur p.cfgDur) := by
  simp [PinCycle.resetOp, hrst, hmode]

theorem resetOp_of_rate (hrst : p.rst = true) (hmode : p.cfgMode = false) :
    p.resetOp c = if namesRate c p.cfgSel then some (.resetRate p.cfgSel) else none := by
  simp [PinCycle.resetOp, hrst, hmode]

/-- A reset operation is performed alone (R62). -/
theorem operations_of_reset {i : Instr} (h : p.resetOp c = some i) : p.operations c = [i] := by
  simp [PinCycle.operations, h]

/-- Without a reset operation: the read, then the edge, then the write (R62). -/
theorem operations_of_no_reset (h : p.resetOp c = none) :
    p.operations c =
      (if p.hRe then [.rd p.hAddr] else []) ++ (if p.edge then [.edge p.timeUs] else []) ++
        (if p.hWe then [.wr p.hAddr p.hWdata] else []) := by
  simp [PinCycle.operations, h]

/-- Of a cycle that presents no reset operation, the `rst` strobe does not matter (R94). -/
theorem operations_rst_low (h : p.resetOp c = none) :
    ({ p with rst := false } : PinCycle).operations c = p.operations c :=
  (operations_of_no_reset (resetOp_of_rst_low rfl)).trans (operations_of_no_reset h).symm

end

section
variable {p : PinCycle} {rest : List Input} {s : State}

theorem step_of_cycle (hin : s.inputs = .cycle p :: rest) :
    step s = perform (p.operations ltcdec) (s.beginCycle.withInputs rest) := by
  rw [step_eq, hin]; rfl

theorem step_of_reset_cycle {i : Instr} (hin : s.inputs = .cycle p :: rest)
    (h : p.resetOp ltcdec = some i) : step s = exec i (s.beginCycle.withInputs rest) := by
  rw [step_of_cycle hin, operations_of_reset h, perform_singleton]

/-- The three phases of a cycle without a reset operation, from a state with no read data (R62). -/
theorem perform_operations_of_no_reset (hs : s.Ready) (hlow : s.pins.hRdata = none)
    (h : p.resetOp ltcdec = none) :
    perform (p.operations ltcdec) s =
      .next (((edgePhase p s).withRdata
          (if p.hRe then some (hostRead ltcdec s.block p.hAddr) else none)).mapBlock fun b =>
        if p.hWe then hostWrite b p.hAddr p.hWdata else b) := by
  have hread := perform_read_phase hs p hlow
  generalize (if p.hRe then some (hostRead ltcdec s.block p.hAddr) else none) = d at hread ⊢
  have hready : (s.withRdata d).Ready := hs
  rw [operations_of_no_reset h, List.append_assoc, perform_append_of_next hread,
    perform_append_of_next (perform_edge_phase hready p), ← edgePhase_withRdata]
  exact perform_write_phase (edgePhase_ready hready p) p

end

/-! ### The obligations -/

/-- Settles O23: a write row changes the registers only, and those as `hostWrite` does. -/
theorem writeTouchesOnlyItsRegister : Obligations.WriteTouchesOnlyItsRegister := by
  intro i addr data s t hbase h
  rw [exec_eq_operate, operation_eq_write hbase] at h
  obtain ⟨-, rfl⟩ := writeIn_eq_next.1 h
  obtain ⟨hfb, hhalf, htPrev, hdigits, hrate, hdur⟩ := hostWriteIn_keeps ltcdec s.block addr data
  exact ⟨rfl, rfl, rfl, rfl, hfb, hhalf, htPrev, hdigits, hrate, hdur,
    hostWrite_keeps_other_registers s.block addr data⟩

/-- Settles O27: a read only responds, and the registers it answers from are the same afterwards. -/
theorem readChangesNothingAndRepeats : Obligations.ReadChangesNothingAndRepeats := by
  intro i addr s t hbase h
  rw [exec_eq_operate, operation_eq_read hbase] at h ⊢
  obtain ⟨hready, rfl⟩ := readIn_eq_next.1 h
  refine ⟨rfl, rfl, rfl, rfl, rfl, rfl, ?_⟩
  exact readIn_of_ready (s := s.respond _) hready addr

/-- Settles O33: what is no edge and no reset is a host access, and no host access decodes. -/
theorem onlyEdgesAndResetsDecode : Obligations.OnlyEdgesAndResetsDecode := by
  intro i s t h hedge hrate hdur
  obtain ⟨addr, data, rfl⟩ | ⟨v, rfl⟩ := exec_host_access h hedge hrate hdur
  · obtain ⟨hfb, hhalf, htPrev, hdigits, -⟩ := hostWriteIn_keeps ltcdec s.block addr data
    exact ⟨hfb, hhalf, htPrev, hdigits, rfl, rfl⟩
  · exact ⟨rfl, rfl, rfl, rfl, rfl, rfl⟩

/-- Settles O40: the phases in their order, with the read data carried past the edge. -/
theorem cycleOrderIsReadEdgeWrite : Obligations.CycleOrderIsReadEdgeWrite := by
  intro p rest s u hs hrst hin hedge hnoEdge
  have hu : edgePhase p (s.beginCycle.withInputs rest) = u := by
    unfold edgePhase
    cases he : p.edge with
    | false => exact (hnoEdge he).symm
    | true => exact (edgeIn_eq_next.1 (hedge he)).2
  rw [step_of_cycle hin,
    perform_operations_of_no_reset (s := s.beginCycle.withInputs rest) hs rfl (resetOp_of_rst_low hrst),
    hu]
  rfl

/-- Settles O41: the reset operation a cycle presents stands alone, and a selector of no rate presents
none. -/
theorem resetCycleSuppressesTheRest : Obligations.ResetCycleSuppressesTheRest := by
  intro p rest s hrst hin
  refine ⟨fun hmode => step_of_reset_cycle hin (resetOp_of_dur hrst hmode), fun hmode hmin hmax => ?_,
    fun hmode hsel => ?_⟩
  · have hlegal : legalRate p.cfgSel = true := by simp [legalRate, hmin, hmax]
    exact step_of_reset_cycle hin (by simp [resetOp_of_rate hrst hmode, hlegal])
  · have hillegal : legalRate p.cfgSel = false := by
      rcases hsel with h | h | h <;> rw [h] <;> rfl
    have hnone : p.resetOp ltcdec = none := by simp [resetOp_of_rate hrst hmode, hillegal]
    rw [step_of_cycle hin, step_of_cycle (p := { p with rst := false }) rfl, operations_rst_low hnone]
    rfl

end Sys2Proof.Machine

/-! PROOF. The claims about the encodings (family `30_encoding.md`): the stimulus word and its decoder, the
line code, and the rows that stand for a `WR` or an `RD`. First the lemmas, then the obligations. -/

namespace Sys2Proof

open Sys2Proof.Machine

/-! ### A word by its fields and under a mask (R88, R92) -/

section
variable {op addr mop maddr : Byte} {data mdata : Word} {w : StimulusWord}

theorem packWord_eq_iff :
    packWord op addr data = w ↔ opField w = op ∧ addrField w = addr ∧ dataField w = data := by
  constructor
  · rintro rfl
    exact ⟨opField_packWord _ _ _, addrField_packWord _ _ _, dataField_packWord _ _ _⟩
  · rintro ⟨rfl, rfl, rfl⟩
    exact packWord_fields w

/-- A mask of a word masks each field on its own. -/
theorem and_packWord_eq_packWord :
    w &&& packWord mop maddr mdata = packWord op addr data ↔
      opField w &&& mop = op ∧ addrField w &&& maddr = addr ∧ dataField w &&& mdata = data := by
  have hand : w &&& packWord mop maddr mdata =
      packWord (opField w &&& mop) (addrField w &&& maddr) (dataField w &&& mdata) := by
    conv_lhs => rw [← packWord_fields w]
    rw [packWord, packWord, BitVec.and_append, BitVec.and_append]; rfl
  rw [hand, eq_comm, packWord_eq_iff, opField_packWord, addrField_packWord, dataField_packWord]

end

/-! ### The data of a `RESET_RATE` word (R89) -/

theorem setWidth_rate_eq_append : ∀ sel : BitVec 3, sel.setWidth 32 = 0#29 ++ sel := by decide

section
variable {data : Word} {sel : BitVec 3}

theorem eq_setWidth_rate_iff :
    sel.setWidth 32 = data ↔ data.extractLsb' 3 29 = 0 ∧ sel = data.extractLsb' 0 3 := by
  rw [setWidth_rate_eq_append]
  constructor
  · rintro rfl
    exact ⟨BitVec.extractLsb'_append_eq_left, BitVec.extractLsb'_append_eq_right.symm⟩
  · rintro ⟨hhigh, rfl⟩
    exact (congrArg (· ++ _) hhigh.symm).trans BitVec.extractLsb'_append_extractLsb'

/-- `data[31:3]` is what the mask of `RESET_RATE` keeps of the data. -/
theorem and_reserved_rate_mask_eq_zero :
    data &&& 0xFFFFFFF8 = 0 ↔ data.extractLsb' 3 29 = 0 := by
  have hmask : (0xFFFFFFF8 : Word) = BitVec.allOnes 29 ++ 0#3 := by decide
  have hzero : (0 : Word) = 0#29 ++ 0#3 := by decide
  have hdata : data = data.extractLsb' 3 29 ++ data.extractLsb' 0 3 :=
    (BitVec.extractLsb'_append_extractLsb' (w := 29) (len := 3)).symm
  conv_lhs => rw [hdata, hmask, hzero, BitVec.and_append, BitVec.and_allOnes, BitVec.and_zero]
  exact BitVec.append_left_inj _

end

/-! ### The base decoder: exactly the words of the legal operations -/

/-- Which operations have a word: all but `RESET_RATE` with a code of no rate (R94). -/
def Operation.legal : Operation → Bool
  | .resetRate sel => legalRate sel
  | .resetDur _ | .edge _ | .write _ _ | .read _ => true

theorem decodeBase_encode {op : Operation} (h : op.legal = true) :
    decodeBase (encode op.instr) = .ok op.instr := by
  cases op with
  | resetRate sel =>
    have hsel : legalRate sel = true := h
    refine (decodeBase_packWord _ _ _).trans ((decodeResetRate_setWidth ltcdec sel).trans ?_)
    rw [namesRate_ltcdec, if_pos hsel]; rfl
  | resetDur fd => exact decodeBase_packWord _ _ _
  | edge now => exact decodeBase_packWord _ _ _
  | write addr data => exact decodeBase_packWord _ _ _
  | read addr => exact decodeBase_packWord _ _ _

theorem decodeResetRate_eq_ok {addr : Byte} {data : Word} {i : Instr}
    (h : decodeResetRate ltcdec addr data = .ok i) :
    ∃ sel, legalRate sel = true ∧ i = .resetRate sel ∧ addr = 0 ∧ data = sel.setWidth 32 := by
  rw [decodeResetRate_ltcdec] at h
  split at h
  · cases h
  next haddr =>
    split at h
    · cases h
    next hhigh =>
      split at h <;> cases h
      next hsel =>
        have hdata := eq_setWidth_rate_iff.2 ⟨not_not.1 hhigh, rfl⟩
        exact ⟨_, hsel, rfl, not_not.1 haddr, hdata.symm⟩

theorem exists_operation_of_decodeBase {w : StimulusWord} {i : Instr} (h : decodeBase w = .ok i) :
    ∃ op : Operation, op.legal = true ∧ op.instr = i ∧ encode op.instr = w := by
  rw [decodeBase_eq] at h
  split at h
  next hop =>
    obtain ⟨sel, hsel, rfl, haddr, hdata⟩ := decodeResetRate_eq_ok h
    exact ⟨.resetRate sel, hsel, rfl, packWord_eq_iff.2 ⟨hop, haddr, hdata⟩⟩
  split at h
  next hop =>
    split at h <;> cases h
    exact ⟨.resetDur _, rfl, rfl, packWord_eq_iff.2 ⟨hop, ‹_›, rfl⟩⟩
  split at h
  next hop =>
    split at h <;> cases h
    exact ⟨.edge _, rfl, rfl, packWord_eq_iff.2 ⟨hop, ‹_›, rfl⟩⟩
  split at h
  next hop =>
    cases h
    exact ⟨.write _ _, rfl, rfl, packWord_eq_iff.2 ⟨hop, rfl, rfl⟩⟩
  split at h
  next hop =>
    split at h <;> cases h
    exact ⟨.read _, rfl, rfl, packWord_eq_iff.2 ⟨hop, rfl, ‹_›⟩⟩
  · cases h

@[simp] theorem operation_instr (op : Operation) : op.instr.operation = op := by
  cases op <;> rfl

theorem Operation.instr_injective : Function.Injective Operation.instr :=
  Function.LeftInverse.injective operation_instr

/-- The base decoder answers an operation exactly on the one word of that operation (R92, R94). -/
theorem decodeBase_eq_ok {w : StimulusWord} (op : Operation) :
    decodeBase w = .ok op.instr ↔ op.legal = true ∧ encode op.instr = w := by
  constructor
  · intro h
    obtain ⟨op', hlegal, hop, hw⟩ := exists_operation_of_decodeBase h
    obtain rfl := Operation.instr_injective hop
    exact ⟨hlegal, hw⟩
  · rintro ⟨hlegal, rfl⟩
    exact decodeBase_encode hlegal

/-! ### The most specific row of a word (log entry 4) -/

theorem wrNamed_iff {addr : Byte} {data : Word} :
    wrNamed addr data = true ↔
      addr ∈ [(0x04 : Byte), 0x05, 0x06, 0x07, 0x08] ∨ addr = 0x00 ∧ (data = 1 ∨ data = 0) := by
  have haddr : ∀ a : Byte, 0x04 ≤ a.toNat ∧ a.toNat ≤ 0x08 ↔
      a ∈ [(0x04 : Byte), 0x05, 0x06, 0x07, 0x08] := by decide
  have hdata : data.toNat ≤ 1 ↔ data = 1 ∨ data = 0 := by bv_omega
  have hzero : addr.toNat = 0 ↔ addr = 0x00 := by bv_omega
  simp only [wrNamed, Bool.or_eq_true, Bool.and_eq_true, decide_eq_true_eq, haddr, hdata, hzero]

theorem nameWr_wf (addr : Byte) (data : Word) : (nameWr addr data).wf = true := by
  unfold nameWr
  repeat' split
  all_goals simp_all [Instr.wf, ← Bool.not_eq_true, wrNamed_iff]

theorem nameWr_of_not_named {addr : Byte} {data : Word} (h : wrNamed addr data = false) :
    nameWr addr data = .wr addr data := by
  unfold nameWr
  repeat' split
  all_goals simp_all [← Bool.not_eq_true, wrNamed_iff]

theorem nameRd_wf : ∀ addr : Byte, (nameRd addr).wf = true := by decide

theorem nameRd_of_not_named : ∀ addr : Byte, rdNamed addr = false → nameRd addr = .rd addr := by decide

/-- The row that names a legal operation's word is well-formed. -/
theorem nameInstr_wf {op : Operation} (h : op.legal = true) : (nameInstr op.instr).wf = true := by
  cases op with
  | resetRate sel => exact h
  | resetDur fd => rfl
  | edge now => rfl
  | write addr data => exact nameWr_wf addr data
  | read addr => exact nameRd_wf addr

/-- A well-formed row is the one the decoder names for its operation's word. -/
theorem nameInstr_base {i : Instr} (h : i.wf = true) : nameInstr i.base = i := by
  cases i with
  | wr addr data => exact nameWr_of_not_named (by simpa [Instr.wf] using h)
  | rd addr => exact nameRd_of_not_named addr (by simpa [Instr.wf] using h)
  | getCell i =>
    have hcell : ∀ i : BitVec 4, legalCell i = true → nameRd (0x1#4 ++ i) = .getCell i := by decide
    exact hcell i h
  | getDigit k =>
    have hdigit : ∀ k : BitVec 3, nameRd (0b00100#5 ++ k) = .getDigit k := by decide
    exact hdigit k
  | _ => rfl

/-! ### A row and its base -/

/-- A row has its base operation's word (R99, R100). -/
@[simp] theorem encode_base (i : Instr) : encode i.base = encode i := by
  cases i <;> rfl

theorem operation_legal_of_wf {i : Instr} (h : i.wf = true) : i.operation.legal = true := by
  cases i with
  | resetRate sel => exact h
  | _ => rfl

/-- The word of the row that names an operation is the operation's word. -/
theorem encode_nameInstr (op : Operation) : encode (nameInstr op.instr) = encode op.instr := by
  rw [← encode_base, Instr.base, operation_nameInstr, operation_instr]

/-! ### The five mask rows (R92, R93) -/

theorem legalRate_iff : ∀ sel : BitVec 3, legalRate sel = true ↔ sel ∈ [(1 : BitVec 3), 2, 3, 4, 5] := by
  decide

section
variable (w : StimulusWord)

theorem extractLsb'_dataField {start len : Nat} (h : start + len ≤ 32) :
    (dataField w).extractLsb' start len = w.extractLsb' start len :=
  BitVec.extractLsb'_extractLsb'_of_le h

theorem encode_resetRate_eq_iff (sel : BitVec 3) :
    encode (.resetRate sel) = w ↔
      w &&& 0xFFFFFFFFFFF8 = 0x010000000000 ∧ sel = w.extractLsb' 0 3 := by
  change packWord 0x01 0x00 (sel.setWidth 32) = w ↔
    w &&& packWord (.allOnes 8) (.allOnes 8) 0xFFFFFFF8 = packWord 0x01 0x00 0 ∧ _
  rw [packWord_eq_iff, and_packWord_eq_packWord, and_reserved_rate_mask_eq_zero, BitVec.and_allOnes,
    BitVec.and_allOnes, eq_comm (a := dataField w), eq_setWidth_rate_iff,
    extractLsb'_dataField w (start := 0) (by decide)]
  simp only [and_assoc]

/-- `RESET_DUR` and `EDGE`: the mask leaves the data free. -/
theorem packWord_time_eq_iff (op : Byte) (data : Word) :
    packWord op 0x00 data = w ↔
      w &&& packWord (.allOnes 8) (.allOnes 8) 0#32 = packWord op 0x00 0#32 ∧
        data = w.extractLsb' 0 32 := by
  rw [packWord_eq_iff, and_packWord_eq_packWord, eq_comm (b := data)]
  simp only [BitVec.and_allOnes, BitVec.and_zero, and_true, and_assoc]
  rfl

theorem encode_wr_eq_iff (addr : Byte) (data : Word) :
    encode (.wr addr data) = w ↔
      w &&& 0xFF0000000000 = 0x040000000000 ∧ addr = w.extractLsb' 32 8 ∧ data = w.extractLsb' 0 32 := by
  change packWord 0x04 addr data = w ↔
    w &&& packWord (.allOnes 8) 0#8 0#32 = packWord 0x04 0#8 0#32 ∧ addr = addrField w ∧ data = dataField w
  rw [packWord_eq_iff, and_packWord_eq_packWord, eq_comm (b := addr), eq_comm (b := data)]
  simp only [BitVec.and_allOnes, BitVec.and_zero, and_true]

theorem encode_rd_eq_iff (addr : Byte) :
    encode (.rd addr) = w ↔
      w &&& 0xFF00FFFFFFFF = 0x050000000000 ∧ addr = w.extractLsb' 32 8 := by
  change packWord 0x05 addr 0 = w ↔
    w &&& packWord (.allOnes 8) 0#8 (.allOnes 32) = packWord 0x05 0#8 0 ∧ addr = addrField w
  rw [packWord_eq_iff, and_packWord_eq_packWord, eq_comm (b := addr)]
  simp only [BitVec.and_allOnes, BitVec.and_zero, true_and, and_assoc]
  rw [and_comm (a := addr = addrField w)]

end

/-! ### Invalid words (R94) -/

theorem not_legalRate_iff : ∀ sel : BitVec 3, legalRate sel = false ↔ sel.toNat ∈ [0, 6, 7] := by
  decide

/-! A check that answers an instruction or a reason. -/

section
variable {p : Prop} [Decidable p] {i : Instr} {e : InvalidWord} {x : Except InvalidWord Instr}

theorem exists_error_of_ok_if : (∃ e', (if p then Except.ok i else .error e) = .error e') ↔ ¬ p := by
  split <;> simp [*]

theorem exists_error_of_error_if :
    (∃ e', (if p then Except.error e else x) = .error e') ↔ p ∨ ∃ e', x = .error e' := by
  split <;> simp [*]

end

theorem decodeResetRate_invalid_iff {addr : Byte} {data : Word} :
    (∃ e, decodeResetRate ltcdec addr data = .error e) ↔
      addr ≠ 0 ∨ data.extractLsb' 3 29 ≠ 0 ∨ (data.extractLsb' 0 3).toNat ∈ [0, 6, 7] := by
  rw [decodeResetRate_ltcdec, exists_error_of_error_if, exists_error_of_error_if,
    exists_error_of_ok_if, Bool.not_eq_true, not_legalRate_iff]

/-! ### The obligations about words -/

/-- Settles O42: the base decoder finds the operation of the row's word, and a well-formed row is the
name of that operation. -/
theorem decodeInvertsEncode : Obligations.DecodeInvertsEncode := by
  intro i hwf
  have hbase : decodeBase (encode i) = .ok i.base := by
    rw [← encode_base]
    exact decodeBase_encode (operation_legal_of_wf hwf)
  rw [decode_eq, hbase]
  exact congrArg Except.ok (nameInstr_base hwf)

/-- Settles O43: the base decoder answers only the operation whose word it is, and naming the row keeps
the word. -/
theorem encodeInvertsDecode : Obligations.EncodeInvertsDecode := by
  intro w i h
  rw [decode_eq] at h
  cases hd : decodeBase w with
  | error e => rw [hd] at h; cases h
  | ok j =>
    rw [hd] at h
    obtain ⟨op, hlegal, rfl, rfl⟩ := exists_operation_of_decodeBase hd
    cases h
    exact ⟨nameInstr_wf hlegal, encode_nameInstr op⟩

/-- Settles O44: each operation is decoded exactly from its own word, and each word is its match under
its mask with the operands in the remaining bits. -/
theorem baseDecodingMatchesMaskTable : Obligations.BaseDecodingMatchesMaskTable := by
  intro w
  refine ⟨fun sel => ?_, fun fd => ?_, fun now => ?_, fun addr data => ?_, fun addr => ?_⟩
  · rw [← legalRate_iff, ← and_assoc, ← encode_resetRate_eq_iff, and_comm]
    exact decodeBase_eq_ok (.resetRate sel)
  · exact (decodeBase_eq_ok (.resetDur fd)).trans
      ((and_iff_right rfl).trans (packWord_time_eq_iff w 0x02 fd))
  · exact (decodeBase_eq_ok (.edge now)).trans
      ((and_iff_right rfl).trans (packWord_time_eq_iff w 0x03 now))
  · exact (decodeBase_eq_ok (.write addr data)).trans
      ((and_iff_right rfl).trans (encode_wr_eq_iff w addr data))
  · exact (decodeBase_eq_ok (.read addr)).trans
      ((and_iff_right rfl).trans (encode_rd_eq_iff w addr))

/-- Settles O45: the reasons of the base decoder, `op` by `op`. -/
theorem invalidWordsAreExactlyThose : Obligations.InvalidWordsAreExactlyThose := by
  intro w
  simp only [decode_eq_error, ← extractLsb'_dataField w (start := 3) (len := 29) (by decide),
    ← extractLsb'_dataField w (start := 0) (len := 3) (by decide)]
  change (∃ e, decodeBase w = .error e) ↔ (opField w).toNat ∉ _ ∨ (opField w).toNat ∈ _ ∧ addrField w ≠ 0 ∨
    (opField w).toNat = 1 ∧ _ ∨ (opField w).toNat = 1 ∧ _ ∨ (opField w).toNat = 5 ∧ dataField w ≠ 0
  rw [decodeBase_eq]
  split
  next hop => rw [hop, decodeResetRate_invalid_iff]; simp
  split
  next hop => rw [hop, exists_error_of_ok_if]; simp
  split
  next hop => rw [hop, exists_error_of_ok_if]; simp
  split
  next hop => rw [hop]; simp
  split
  next hop => rw [hop, exists_error_of_ok_if]; simp
  next h1 h2 h3 h4 h5 =>
    have hop : (opField w).toNat ∉ [1, 2, 3, 4, 5] := by simp_all [← BitVec.toNat_inj]
    exact iff_of_true ⟨_, rfl⟩ (.inl hop)

end Sys2Proof

namespace Sys2Proof.Machine

open Sys2Proof

/-! ### One bit of the line code (R82, R99)

A bit is one interval (`inl`, the bit 0) or two (`inr`, the bit 1). -/

/-- The trace lines of a bit (R99). -/
def pulsesOf : Word ⊕ (Word × Word) → List Pseudo :=
  Sum.elim (fun d => [.pulse d]) (fun p => [.pulse p.1, .pulse p.2])

/-- The time a bit takes. -/
def spanOf : Word ⊕ (Word × Word) → Word := Sum.elim id (fun p => p.1 + p.2)

/-- The bit itself. -/
def bitOf (x : Word ⊕ (Word × Word)) : BitVec 1 := BitVec.ofBool x.isRight

/-- The intervals of a bit lie in the windows they should (R82). -/
def WellTimed (b : Block) : Word ⊕ (Word × Word) → Prop
  | .inl d => classify b d.toNat = .long
  | .inr p => classify b p.1.toNat = .short ∧ classify b p.2.toNat = .short

/-- The state with the latest edge `dt` later and another `HALF`. -/
def State.afterInterval (s : State) (dt : Word) (half : HalfBitState) : State :=
  s.mapBlock fun b => { b with tPrev := b.tPrev + dt, half := half }

/-- The state after one well-timed bit received in `Idle`: the time moved on and the bit emitted. -/
def afterBit (s : State) (x : Word ⊕ (Word × Word)) : State :=
  emit ltcdec (bitOf x) (s.afterInterval (spanOf x) .idle)

/-- The FrameBuffer after a list of bits, oldest first. -/
def shiftInBits (fb : FrameBits) (bits : List (Word ⊕ (Word × Word))) : FrameBits :=
  bits.foldl (fun fb x => shiftIn (bitOf x) fb) fb

section
variable (s : State) (x : Word ⊕ (Word × Word))

theorem State.afterInterval_afterInterval (a b : Word) (h k : HalfBitState) :
    (s.afterInterval a h).afterInterval b k = s.afterInterval (a + b) k := by
  simp [State.afterInterval, State.mapBlock, BitVec.add_assoc]

/-- A bit writes the time, `HALF`, the FrameBuffer and, on a match, the digits. -/
theorem afterBit_block :
    (afterBit s x).block =
      { s.block with
        tPrev := s.block.tPrev + spanOf x
        half := .idle
        fb := shiftIn (bitOf x) s.block.fb
        digits :=
          if compareValue ltcdec (shiftIn (bitOf x) s.block.fb) = s.block.syncPattern then
            digitsOf (shiftIn (bitOf x) s.block.fb)
          else s.block.digits } := by
  rw [afterBit, emit_block, State.afterInterval, State.mapBlock_block]
  split <;> rfl

theorem afterBit_ready (hs : s.Ready) : (afterBit s x).Ready := by
  obtain ⟨hconstructed, -⟩ := emit_keeps ltcdec (bitOf x) (s.afterInterval (spanOf x) .idle)
  exact hconstructed.trans hs

/-- A bit leaves the windows, so what is well-timed stays so. -/
theorem wellTimed_afterBit (y : Word ⊕ (Word × Word)) :
    WellTimed (afterBit s x).block y ↔ WellTimed s.block y := by
  rw [afterBit_block]; cases y <;> rfl

/-- The times of the edges continue from the end of the bit (R99). -/
theorem expandTrace_pulsesOf (t : Word) (rest : List Pseudo) :
    expandTrace t (pulsesOf x ++ rest) =
      expandTrace t (pulsesOf x) ++ expandTrace (t + spanOf x) rest := by
  cases x with
  | inl d => rfl
  | inr p => simp [pulsesOf, expandTrace, Pseudo.expand, latestEdge, spanOf, BitVec.add_assoc]

variable {s x}

/-- An edge at `dt` after the latest one, by the class of `dt` (R131, R133). -/
theorem exec_edge_after {dt : Word} {k : PulseClass} (hs : s.Ready)
    (h : classify s.block dt.toNat = k) :
    exec (.edge (s.block.tPrev + dt)) s =
      .next (emitIfAny ltcdec (emittedBit s.block.half k)
        (s.afterInterval dt (nextHalf s.block.half k))) := by
  rw [exec_edge_of_ready hs]
  have hdt : s.block.tPrev + dt - s.block.tPrev = dt := by
    rw [BitVec.add_comm, BitVec.add_sub_cancel]
  exact congrArg _ (processEdge_ltcdec_of_class (by rw [hdt]; exact h))

/-- In `Idle` the edges of a well-timed bit emit that bit: a long interval the bit 0, two short ones the
bit 1 (R134, R135, R136). -/
theorem perform_pulsesOf (hs : s.Ready) (hidle : s.block.half = .idle) (hx : WellTimed s.block x) :
    perform (expandTrace s.block.tPrev (pulsesOf x)) s = .next (afterBit s x) := by
  cases x with
  | inl d =>
    refine (perform_singleton _ s).trans ((exec_edge_after hs hx).trans ?_)
    rw [hidle]; rfl
  | inr p =>
    obtain ⟨ha, hb⟩ := hx
    have hfirst : exec (.edge (s.block.tPrev + p.1)) s =
        .next (s.afterInterval p.1 .halfBitPending) := by
      rw [exec_edge_after hs ha, hidle]; rfl
    have hsecond : exec (.edge (s.block.tPrev + p.1 + p.2)) (s.afterInterval p.1 .halfBitPending) =
        .next (afterBit s (.inr p)) := by
      refine (exec_edge_after (s := s.afterInterval p.1 _) hs hb).trans ?_
      rw [State.afterInterval_afterInterval]; rfl
    exact (perform_cons_of_next hfirst _).trans ((perform_singleton _ _).trans hsecond)

end

/-! ### A list of bits (R151) -/

/-- A list of bits is shifted in bit by bit, keeps the pattern and ends in `Idle` where it started. -/
theorem foldl_afterBit_block (bits : List (Word ⊕ (Word × Word))) (s : State) :
    (bits.foldl afterBit s).block.fb = shiftInBits s.block.fb bits ∧
    (bits.foldl afterBit s).block.syncPattern = s.block.syncPattern ∧
    (s.block.half = .idle → (bits.foldl afterBit s).block.half = .idle) := by
  induction bits generalizing s with
  | nil => exact ⟨rfl, rfl, id⟩
  | cons x rest ih =>
    obtain ⟨hfb, hpattern, hidle⟩ := ih (afterBit s x)
    rw [afterBit_block] at hfb hpattern hidle
    exact ⟨hfb, hpattern, fun _ => hidle rfl⟩

/-- In `Idle` a well-timed stream is decoded bit by bit. -/
theorem perform_bits (bits : List (Word ⊕ (Word × Word))) {s : State} (hs : s.Ready)
    (hidle : s.block.half = .idle) (hbits : ∀ x ∈ bits, WellTimed s.block x) :
    perform (expandTrace s.block.tPrev (bits.flatMap pulsesOf)) s =
      .next (bits.foldl afterBit s) := by
  induction bits generalizing s with
  | nil => rfl
  | cons x rest ih =>
    have htime : (afterBit s x).block.tPrev = s.block.tPrev + spanOf x := by rw [afterBit_block]
    have hrest := ih (afterBit_ready s x hs) (by rw [afterBit_block]) fun y hy =>
      (wellTimed_afterBit s x y).2 (hbits y (List.mem_cons_of_mem x hy))
    rw [htime] at hrest
    rw [List.flatMap_cons, expandTrace_pulsesOf,
      perform_append_of_next (perform_pulsesOf hs hidle (hbits x List.mem_cons_self))]
    exact hrest

/-- The bounds on the intervals, as the statements give them, are the classes of R132. -/
theorem wellTimed_of_windows {bits : List (Word ⊕ (Word × Word))} {b : Block}
    (hzero : ∀ d, Sum.inl d ∈ bits →
      ¬ (b.shortMin ≤ d ∧ d ≤ b.shortMax) ∧ b.longMin ≤ d ∧ d ≤ b.longMax)
    (hone : ∀ a c, Sum.inr (a, c) ∈ bits →
      (b.shortMin ≤ a ∧ a ≤ b.shortMax) ∧ b.shortMin ≤ c ∧ c ≤ b.shortMax) :
    ∀ x ∈ bits, WellTimed b x
  | .inl d, hd => classify_toNat_eq_long.2 (hzero d hd)
  | .inr (a, c), hp =>
    ⟨classify_toNat_eq_short.2 (hone a c hp).1, classify_toNat_eq_short.2 (hone a c hp).2⟩

/-! ### The FrameBuffer bit by bit (R151) -/

theorem shiftIn_getLsbD (bit : BitVec 1) (fb : FrameBits) (i : Nat) :
    (shiftIn bit fb).getLsbD i = if i < 79 then fb.getLsbD (i + 1) else bit.getLsbD (i - 79) := by
  rw [shiftIn, BitVec.getLsbD_append]
  split
  next hi => simp [hi, Nat.add_comm]
  next => rfl

theorem shiftInBits_concat (fb : FrameBits) (older : List (Word ⊕ (Word × Word)))
    (newest : Word ⊕ (Word × Word)) :
    shiftInBits fb (older ++ [newest]) = shiftIn (bitOf newest) (shiftInBits fb older) :=
  List.foldl_concat ..

/-- The bit that came `n` bits before the newest stands at `FB[79-n]`. -/
theorem shiftInBits_getLsbD (fb : FrameBits) (bits : List (Word ⊕ (Word × Word))) {n : Nat}
    {x : Word ⊕ (Word × Word)} (hn : n < 80) (hx : bits.reverse[n]? = some x) :
    (shiftInBits fb bits).getLsbD (79 - n) = x.isRight := by
  induction bits using List.reverseRecOn generalizing n with
  | nil => simp at hx
  | append_singleton older newest ih =>
    rw [List.reverse_concat] at hx
    rw [shiftInBits_concat, shiftIn_getLsbD]
    cases n with
    | zero =>
      obtain rfl : newest = x := by simpa using hx
      simp [bitOf]
    | succ m =>
      have hm : 79 - (m + 1) + 1 = 79 - m := by omega
      rw [if_pos (by omega), hm]
      exact ih (by omega) hx

/-- Of 80 bits, the bit that came as number `i` stands at `FB[i]`. -/
theorem shiftInBits_getLsbD_of_frame (fb : FrameBits) {bits : List (Word ⊕ (Word × Word))}
    (hlen : bits.length = 80) {i : Nat} {x : Word ⊕ (Word × Word)} (hx : bits[i]? = some x) :
    (shiftInBits fb bits).getLsbD i = x.isRight := by
  have hi : i < 80 := hlen ▸ (List.getElem?_eq_some_iff.1 hx).1
  have hsub : 79 - (79 - i) = i := by omega
  have hrev : bits.reverse[79 - i]? = some x := by
    rw [List.getElem?_reverse (by omega), hlen, hsub, hx]
  rw [← hsub]
  exact shiftInBits_getLsbD fb bits (by omega) hrev

/-! ### A frame (R83, R155) -/

theorem digitsOf_getLsbD (fb : FrameBits) (k : Fin 8) {j : Nat} (hj : j < 8) :
    (digitsOf fb)[k].getLsbD j = fb.getLsbD (8 * (7 - k.val) + j) := by
  fin_cases k <;> simp [digitsOf, cellOf, hj]

/-- After a list of bits that ends in a match, the digits are those of the FrameBuffer. -/
theorem foldl_afterBit_digits {bits : List (Word ⊕ (Word × Word))} {s : State} (hbits : bits ≠ [])
    (hmatch : compareValue ltcdec (shiftInBits s.block.fb bits) = s.block.syncPattern) :
    (bits.foldl afterBit s).block.digits = digitsOf (shiftInBits s.block.fb bits) := by
  obtain ⟨older, newest, rfl⟩ := (List.eq_nil_or_concat' bits).resolve_left hbits
  obtain ⟨hfb, hpattern, -⟩ := foldl_afterBit_block older s
  rw [shiftInBits_concat] at hmatch ⊢
  rw [List.foldl_concat, afterBit_block, hfb, hpattern, if_pos hmatch]

/-! ### Two write rows in order -/

/-- A row that stands for a write (R99, R170). -/
theorem exec_write_row {i : Instr} {s : State} {addr : Byte} {data : Word} (hs : s.Ready)
    (hi : i.operation = .write addr data) :
    exec i s = .next (s.mapBlock fun b => hostWrite b addr data) := by
  rw [exec_eq_operate, hi]
  exact performWrite_of_ready hs addr data

theorem perform_write_rows {i j : Instr} {s : State} {addr addr' : Byte} {data data' : Word}
    (hs : s.Ready) (hi : i.operation = .write addr data) (hj : j.operation = .write addr' data') :
    perform [i, j] s =
      .next (s.mapBlock fun b => hostWrite (hostWrite b addr data) addr' data') := by
  rw [perform_cons_of_next (exec_write_row hs hi), perform_singleton]
  exact exec_write_row (s := s.mapBlock _) hs hj

/-! ### The obligations about the line code -/

/-- Settles O18: bit by bit, each one shifted in at `FB[79]`. -/
theorem lineCodeFillsFrameBuffer : Obligations.LineCodeFillsFrameBuffer := by
  intro bits s hs hidle hzero hone
  obtain ⟨hfb, -, hidle'⟩ := foldl_afterBit_block bits s
  refine ⟨_, perform_bits bits hs hidle (wellTimed_of_windows hzero hone), hidle' hidle, ?_⟩
  intro n x hn hx
  rw [hfb]
  exact shiftInBits_getLsbD _ bits hn hx

/-- Settles O19: of 80 bits, number `i` stands at `FB[i]`, so the last 16 match and cells 2 to 9 go to
the digits. -/
theorem frameLeavesItsPayloadInDigits : Obligations.FrameLeavesItsPayloadInDigits := by
  intro bits s hs hidle hlen hzero hone hsync
  have hframe {i : Nat} {x} (hx : bits[i]? = some x) :
      (shiftInBits s.block.fb bits).getLsbD i = x.isRight :=
    shiftInBits_getLsbD_of_frame s.block.fb hlen hx
  have hmatch : compareValue ltcdec (shiftInBits s.block.fb bits) = s.block.syncPattern := by
    rw [compareValue_ltcdec]
    refine BitVec.eq_of_getLsbD_eq fun j hj => ?_
    have hx : bits[64 + j]? = some bits[64 + j] := List.getElem?_eq_getElem (by omega)
    rw [← hsync j _ hj hx, ← hframe hx, BitVec.getLsbD_extractLsb']
    simp [hj]
  have hbits : bits ≠ [] := by rintro rfl; cases hlen
  refine ⟨_, perform_bits bits hs hidle (wellTimed_of_windows hzero hone), fun k j x hj hx => ?_⟩
  rw [foldl_afterBit_digits hbits hmatch, digitsOf_getLsbD _ k hj, hframe hx]

/-! ### The obligations about rows and steps -/

/-- Settles O24: the two writes, one after the other. -/
theorem windowSettersSetBothBounds : Obligations.WindowSettersSetBothBounds := by
  intro min max now s hs
  constructor
  · refine (perform_write_rows (i := .wrShortMin min) (j := .wrShortMax max) hs rfl rfl).trans ?_
    simp [State.mapBlock]
  · refine (perform_write_rows (i := .wrLongMin min) (j := .wrLongMax max) hs rfl rfl).trans ?_
    simp [State.mapBlock]

/-- Settles O32: a meaning depends on the row's operation only, which the base row has too. -/
theorem rowsActAsTheirBaseOperation : Obligations.RowsActAsTheirBaseOperation := by
  intro i s
  rw [exec_eq_operate, exec_eq_operate, Instr.base, operation_instr]

/-- Settles O39: an invalid word is no operation, so the cycle only starts and takes its input. -/
theorem stepIgnoresInvalidWordAndWaits : Obligations.StepIgnoresInvalidWordAndWaits := by
  refine ⟨fun w e rest s hin hw => ?_, fun s hin => ?_⟩
  · have hops : (Input.word w).operations ltcdec = [] := operations_word_of_error (decode_eq_error.1 hw)
    rw [step_eq, hin]
    exact congrArg (perform · _) hops
  · have hstep := step_eq s
    rw [hin] at hstep
    exact hstep

end Sys2Proof.Machine

/-! PROOF. The claims about construction and its arithmetic (family `40_construction_calibration.md`).
First what a reset operation answers and the bounds it forms from `BIT_DUR`, and then the obligations. -/

namespace Sys2Proof.Machine

open Sys2Proof

/-! ### What the two reset operations answer -/

theorem exec_resetRate_of_rate {sel : BitVec 3} {r : FrameRate} (h : rateOfSel sel = some r) (s : State) :
    exec (.resetRate sel) s = .next (construct ltcdec sel (bitDurOfRate r) s) :=
  resetRateIn_of_rate h

theorem exec_resetDur (fd : Word) (s : State) :
    exec (.resetDur fd) s = .next (construct ltcdec 0 (bitDurOfFrame fd) s) :=
  execResetDur_ltcdec fd s

theorem exec_resetDur_block {fd : Word} {s t : State} (h : exec (.resetDur fd) s = .next t) :
    t.block = constructBlock ltcdec 0 (bitDurOfFrame fd) := by
  rw [exec_resetDur] at h
  cases h
  rfl

/-- The legal operands of `RESET_RATE` name a rate (R86). -/
theorem exists_rateOfSel_of_legal {sel : BitVec 3} (hmin : 1 ≤ sel.toNat) (hmax : sel.toNat ≤ 5) :
    ∃ r, rateOfSel sel = some r := by
  have hlegal : namesRate ltcdec sel = true := by simp [legalRate, hmin, hmax]
  exact Option.isSome_iff_exists.1 hlegal

/-! ### `BIT_DUR` (R113) -/

/-- The sum and the quotient fit a word (R116). -/
theorem bitDurOfFrame_toNat (fd : Word) : (bitDurOfFrame fd).toNat = (fd.toNat + 40) / 80 := by
  have := fd.isLt
  exact Nat.mod_eq_of_lt (by omega)

theorem bitDurOfRate_le (r : FrameRate) : (bitDurOfRate r).toNat ≤ 53687091 := by
  cases r <;> decide

/-- Either reset operation with legal operands constructs, and from a `BIT_DUR` within R116's bound. -/
theorem exec_reset_block {i : Instr} {s t : State}
    (hi : (∃ sel : BitVec 3, i = .resetRate sel ∧ 1 ≤ sel.toNat ∧ sel.toNat ≤ 5) ∨
      ∃ fd, i = .resetDur fd)
    (h : exec i s = .next t) :
    ∃ sel bitDur, t.block = constructBlock ltcdec sel bitDur ∧ bitDur.toNat ≤ 53687091 := by
  obtain ⟨sel, rfl, hmin, hmax⟩ | ⟨fd, rfl⟩ := hi
  · obtain ⟨r, hr⟩ := exists_rateOfSel_of_legal hmin hmax
    rw [exec_resetRate_of_rate hr] at h
    cases h
    exact ⟨sel, bitDurOfRate r, rfl, bitDurOfRate_le r⟩
  · exact ⟨0, bitDurOfFrame fd, exec_resetDur_block h, bitDurOfFrame_le fd⟩

/-! ### The windows (R114) -/

/-- The bounds as numbers: none of them overflows a word, whatever `BIT_DUR` is (R116). -/
theorem constructBlock_bounds_toNat (sel : BitVec 3) (bitDur : Word) :
    (constructBlock ltcdec sel bitDur).shortMin.toNat = (bitDur.toNat + 1) / 3 ∧
    (constructBlock ltcdec sel bitDur).shortMax.toNat = (2 * bitDur.toNat + 1) / 3 ∧
    (constructBlock ltcdec sel bitDur).longMin.toNat = (2 * bitDur.toNat + 1) / 3 + 1 ∧
    (constructBlock ltcdec sel bitDur).longMax = bitDur ∧
    (constructBlock ltcdec sel bitDur).bitDur = bitDur := by
  have := bitDur.isLt
  rw [constructBlock_ltcdec]
  refine ⟨Nat.mod_eq_of_lt ?_, Nat.mod_eq_of_lt ?_, Nat.mod_eq_of_lt ?_, rfl, rfl⟩ <;>
    simp only [shortMinOf, shortMaxOf] <;> omega

/-- The whole next state of a reset operation, its bounds written out from the number of microseconds
(R42, R110, R111). -/
theorem construct_ltcdec_ofNat (sel : BitVec 3) {bitDur : Nat} (h : bitDur < 2 ^ 32) (s : State) :
    construct ltcdec sel (BitVec.ofNat 32 bitDur) s =
      { constructed := true
        block :=
          { fb := 0, half := .idle, tPrev := 0, rateSel := sel, bitDur := BitVec.ofNat 32 bitDur
            shortMin := BitVec.ofNat 32 (shortMinOf bitDur)
            shortMax := BitVec.ofNat 32 (shortMaxOf bitDur)
            longMin := BitVec.ofNat 32 (shortMaxOf bitDur + 1)
            longMax := BitVec.ofNat 32 bitDur
            syncPattern := Config.defaultSync, syncEn := false, digits := #v[0, 0, 0, 0, 0, 0, 0, 0] }
        out := [], pins := s.pins, inputs := s.inputs } := by
  have hnat : (BitVec.ofNat 32 bitDur).toNat = bitDur := Nat.mod_eq_of_lt h
  rw [construct, constructBlock_ltcdec, windowsOfBitDur, hnat]

/-! ### The obligations -/

/-- Settles O3: both reset operations construct from a bounded `BIT_DUR`, and the order of the bounds is
that of the numbers they are. -/
theorem constructedWindowsAreAdjacent : Obligations.ConstructedWindowsAreAdjacent := by
  intro i s t hi h
  obtain ⟨sel, bitDur, hblock, hle⟩ := exec_reset_block hi h
  obtain ⟨hshortMin, hshortMax, hlongMin, hlongMax, hbitDur⟩ := constructBlock_bounds_toNat sel bitDur
  rw [hblock, BitVec.le_def, BitVec.le_def, hshortMin, hshortMax, hlongMin, hlongMax, hbitDur]
  refine ⟨?_, rfl, rfl, fun htwo => ?_, hle⟩ <;> omega

/-- Settles O4: `BIT_DUR` is the quotient of `fd + 40` by 80. -/
theorem bitDurationIsNearestInteger : Obligations.BitDurationIsNearestInteger := by
  intro fd s t h
  have hbitDur : t.block.bitDur.toNat = (fd.toNat + 40) / 80 := by
    obtain ⟨-, -, -, -, hbitDur⟩ := constructBlock_bounds_toNat 0 (bitDurOfFrame fd)
    rw [exec_resetDur_block h, hbitDur, bitDurOfFrame_toNat]
  omega

/-- Settles O5: the quotients by 3 of the bounds at `3k + r`. -/
theorem windowBoundsFollowThirds : Obligations.WindowBoundsFollowThirds := by
  intro fd s t k r h hthirds hr
  obtain ⟨hshortMin, hshortMax, hlongMin, hlongMax, hbitDur⟩ :=
    constructBlock_bounds_toNat 0 (bitDurOfFrame fd)
  rw [exec_resetDur_block h] at hthirds ⊢
  rw [hbitDur] at hthirds
  rw [hshortMin, hshortMax, hlongMin, hlongMax, hthirds]
  refine ⟨rfl, ?_, ?_, ?_⟩ <;> omega

/-- Settles O34: an edge keeps the two registers, and so does every host access. -/
theorem onlyResetsWriteConstructionRecord : Obligations.OnlyResetsWriteConstructionRecord := by
  intro i s t h hrate hdur
  by_cases hedge : ∃ now, i = .edge now
  · obtain ⟨now, rfl⟩ := hedge
    obtain ⟨-, rfl⟩ := edgeIn_eq_next.1 h
    obtain ⟨-, -, -, hblock⟩ := processEdge_keeps ltcdec now s
    rw [hblock]
    exact ⟨rfl, rfl⟩
  · obtain ⟨addr, data, rfl⟩ | ⟨v, rfl⟩ := exec_host_access h (not_exists.1 hedge) hrate hdur
    · obtain ⟨-, -, -, -, hrateSel, hbitDur⟩ := hostWriteIn_keeps ltcdec s.block addr data
      exact ⟨hrateSel, hbitDur⟩
    · exact ⟨rfl, rfl⟩

/-- Settles O1: the table's five rates construct, and the three other codes name no rate. -/
theorem resetRateConstructsForNamedRate : Obligations.ResetRateConstructsForNamedRate := by
  refine ⟨fun sel bitDur s hmem => ?_, fun sel s hsel => ?_⟩
  · have hrate : bitDur < 2 ^ 32 ∧ ∃ r, rateOfSel sel = some r ∧ bitDurOfRate r = BitVec.ofNat 32 bitDur := by
      simp only [List.mem_cons, Prod.mk.injEq, List.not_mem_nil, or_false] at hmem
      rcases hmem with ⟨rfl, rfl⟩ | ⟨rfl, rfl⟩ | ⟨rfl, rfl⟩ | ⟨rfl, rfl⟩ | ⟨rfl, rfl⟩ <;>
        exact ⟨by decide, _, rfl, rfl⟩
    obtain ⟨hlt, r, hr, hbitDur⟩ := hrate
    rw [exec_resetRate_of_rate hr, hbitDur, construct_ltcdec_ofNat sel hlt]
    rfl
  · have hnone : rateOfSel sel = none := by
      rcases hsel with rfl | rfl | rfl <;> rfl
    exact resetRateIn_of_no_rate hnone

/-- Settles O2: the quotient of `fd + 40` by 80 is a number of 32 bits, so it constructs as it stands. -/
theorem resetDurConstructsForDuration : Obligations.ResetDurConstructsForDuration := by
  rintro fd bitDur s rfl
  have hlt : (fd.toNat + 40) / 80 < 2 ^ 32 := by
    have := fd.isLt
    omega
  rw [exec_resetDur, bitDurOfFrame, construct_ltcdec_ofNat 0 hlt]
  rfl

end Sys2Proof.Machine

/-! PROOF. The claims about one edge and about runs of noise (family `41_edge_decode.md`). First what an
edge answers by the class of its interval and by the bit it emits, and then the obligations. -/

namespace Sys2Proof.Machine

open Sys2Proof

/-! ### One edge by its class (R130 to R133) -/

/-- The state with the latest edge at `now` and another `HALF`. -/
def State.afterEdge (s : State) (now : Word) (half : HalfBitState) : State :=
  s.mapBlock fun b => { b with tPrev := now, half := half }

section
variable {s : State} {now : Word}

theorem exec_edge_of_class {k : PulseClass} (hs : s.Ready)
    (h : classify s.block (now - s.block.tPrev).toNat = k) :
    exec (.edge now) s =
      .next (emitIfAny ltcdec (emittedBit s.block.half k)
        (s.afterEdge now (nextHalf s.block.half k))) :=
  (exec_edge_of_ready hs now).trans (congrArg _ (processEdge_ltcdec_of_class h))

/-- An unrecognized interval emits nothing in either decoder state, and keeps it (R133, R138). -/
theorem exec_edge_of_unrecognized (hs : s.Ready)
    (h : classify s.block (now - s.block.tPrev).toNat = .unrecognized) :
    exec (.edge now) s = .next (s.afterEdge now s.block.half) := by
  rw [exec_edge_of_class hs h]
  cases s.block.half <;> rfl

/-- A second short pulse emits 1 and a long pulse in `Idle` emits 0, both into `Idle` (R135, R136). -/
theorem exec_edge_of_bit {bit : BitVec 1} (hs : s.Ready)
    (h : (s.block.half = .halfBitPending ∧ bit = 1 ∧
          classify s.block (now - s.block.tPrev).toNat = .short) ∨
        (s.block.half = .idle ∧ bit = 0 ∧
          classify s.block (now - s.block.tPrev).toNat = .long)) :
    exec (.edge now) s = .next (emit ltcdec bit (s.afterEdge now .idle)) := by
  obtain ⟨hhalf, rfl, hclass⟩ | ⟨hhalf, rfl, hclass⟩ := h <;>
    rw [exec_edge_of_class hs hclass, hhalf] <;> rfl

/-- A run of unrecognized intervals, each measured from the edge before it: the windows stay, so each
edge only moves the time (R138). -/
theorem perform_edges_of_unrecognized {nows : List Word} (hs : s.Ready)
    (h : List.IsChain (fun before now => classify s.block (now - before).toNat = .unrecognized)
      (s.block.tPrev :: nows)) :
    perform (nows.map .edge) s =
      .next (s.afterEdge (nows.getLastD s.block.tPrev) s.block.half) := by
  induction nows generalizing s with
  | nil => rfl
  | cons now rest ih =>
    obtain ⟨hfirst, hrest⟩ := List.isChain_cons_cons.1 h
    rw [List.map_cons, perform_cons_of_next (exec_edge_of_unrecognized hs hfirst),
      List.getLastD_cons]
    exact ih (s := s.afterEdge now s.block.half) hs hrest

end

/-! ### `emit` by the match and the enable (R150, R153, R155, R156) -/

section
variable {c : Config} {bit : BitVec 1} {s : State}

theorem emit_of_no_match (h : compareValue c (shiftIn bit s.block.fb) ≠ s.block.syncPattern) :
    emit c bit s = s.mapBlock fun b => { b with fb := shiftIn bit b.fb } :=
  if_neg h

section
variable (hmatch : compareValue c (shiftIn bit s.block.fb) = s.block.syncPattern)
include hmatch

theorem emit_of_match_disabled (hen : s.block.syncEn = false) :
    emit c bit s =
      s.mapBlock fun b =>
        { b with fb := shiftIn bit b.fb, digits := digitsOf (shiftIn bit b.fb) } := by
  simp [emit, syncEvent, State.mapBlock, hmatch, hen]

theorem emit_of_match_enabled (hen : s.block.syncEn = true) :
    emit c bit s =
      outputSync (s.mapBlock fun b =>
        { b with fb := shiftIn bit b.fb, digits := digitsOf (shiftIn bit b.fb) }) := by
  simp [emit, syncEvent, State.mapBlock, hmatch, hen]

end

end

/-! ### The obligations -/

/-- Settles O10: the bounds in the statement are the class `unrecognized`, edge after edge. -/
theorem noiseRunOnlyMovesTime : Obligations.NoiseRunOnlyMovesTime := by
  intro nows s hs hchain
  exact perform_edges_of_unrecognized hs
    (hchain.imp fun _ _ h => classify_toNat_eq_unrecognized.2 h)

/-- Settles O11: the edge emits the bit, and `emit` goes by the match and then by `SYNC_EN`. -/
theorem edgeEmitsShiftsComparesExtracts : Obligations.EdgeEmitsShiftsComparesExtracts := by
  rintro now bit _ _ s hs hcase rfl rfl
  have hexec : exec (.edge now) s = .next (emit ltcdec bit (s.afterEdge now .idle)) :=
    exec_edge_of_bit hs (hcase.imp
      (fun ⟨hhalf, hbit, hshort⟩ => ⟨hhalf, hbit, classify_toNat_eq_short.2 hshort⟩)
      (fun ⟨hhalf, hbit, hlong⟩ => ⟨hhalf, hbit, classify_toNat_eq_long.2 hlong⟩))
  rw [hexec, ← compareValue_ltcdec]
  refine ⟨fun hno => ?_, fun hmatch hen => ?_, fun hmatch hen => ?_⟩
  · exact congrArg _ (emit_of_no_match (s := s.afterEdge now .idle) hno)
  · exact congrArg _ (emit_of_match_disabled (s := s.afterEdge now .idle) hmatch hen)
  · exact congrArg _ (emit_of_match_enabled (s := s.afterEdge now .idle) hmatch hen)

/-- Settles O13: every edge writes `T_PREV`, and of the rest only `HALF`, the FrameBuffer, the digits
and the output. -/
theorem edgeLeavesCalibrationAlone : Obligations.EdgeLeavesCalibrationAlone := by
  intro now s t h
  obtain ⟨-, rfl⟩ := edgeIn_eq_next.1 h
  obtain ⟨hconstructed, hinputs, hrdata, hblock⟩ := processEdge_keeps ltcdec now s
  rw [hblock]
  exact ⟨hconstructed, hinputs, hrdata, timeOf_ltcdec now, rfl, rfl, rfl, rfl, rfl, rfl, rfl, rfl⟩

/-- Settles O7: a short pulse in `Idle` emits nothing. -/
theorem shortInIdleStartsHalfBit : Obligations.ShortInIdleStartsHalfBit := by
  intro now s hs hidle hmin hmax
  rw [exec_edge_of_class hs (classify_toNat_eq_short.2 ⟨hmin, hmax⟩), hidle]; rfl

/-- Settles O8: a long pulse with a half bit pending emits nothing. -/
theorem longWhilePendingOnlyResets : Obligations.LongWhilePendingOnlyResets := by
  intro now s hs hpending hshort hmin hmax
  rw [exec_edge_of_class hs (classify_toNat_eq_long.2 ⟨hshort, hmin, hmax⟩), hpending]; rfl

/-- Settles O9: the bounds in the statement are the class `unrecognized`. -/
theorem unrecognizedIntervalOnlyMovesTime : Obligations.UnrecognizedIntervalOnlyMovesTime := by
  intro now s hs hshort hlong
  exact exec_edge_of_unrecognized hs (classify_toNat_eq_unrecognized.2 ⟨hshort, hlong⟩)

end Sys2Proof.Machine

/-! PROOF. The claims about the shift, the sync comparison and the digits (family
`42_shift_sync_extract.md`). First the views of the shifted FrameBuffer, then what one edge does to the
digits and the output, and then the obligations. -/

namespace Sys2Proof.Machine

open Sys2Proof

/-! ### The views of the shifted FrameBuffer (R152 to R155) -/

/-- Bits out of the middle of a word, within them. -/
theorem extractLsb'_extractLsb' {w start len base len' : Nat} (x : BitVec w) (h : start + len ≤ len') :
    (x.extractLsb' base len').extractLsb' start len = x.extractLsb' (base + start) len := by
  apply BitVec.eq_of_getLsbD_eq
  intro j hj
  simp [hj, show start + j < len' by omega, Nat.add_assoc]

section
variable (bit : BitVec 1) (fb : FrameBits)

/-- Bits below the top one are the old bits one place higher. -/
theorem extractLsb'_shiftIn {start len : Nat} (h : start + len ≤ 79) :
    (shiftIn bit fb).extractLsb' start len = fb.extractLsb' (1 + start) len :=
  (BitVec.extractLsb'_append_eq_of_add_le h).trans (extractLsb'_extractLsb' fb h)

/-- The bits down from the top are the new bit and the old bits one place higher. -/
theorem extractLsb'_shiftIn_top {start len : Nat} (h : 79 = start + len) :
    (shiftIn bit fb).extractLsb' start (1 + len) = bit ++ fb.extractLsb' (1 + start) len := by
  rw [← BitVec.extractLsb'_append_extractLsb'_eq_extractLsb' h, extractLsb'_shiftIn _ _ h.ge]
  exact congrArg (· ++ _) BitVec.extractLsb'_append_eq_left

theorem cellOf_upper_seven (i : Fin 10) :
    (cellOf fb i).extractLsb' 1 7 = fb.extractLsb' (72 - 8 * i.val + 1) 7 :=
  extractLsb'_extractLsb' _ (by decide)

theorem cellOf_lowest_bit (i : Fin 10) :
    (cellOf fb i).extractLsb' 0 1 = fb.extractLsb' (72 - 8 * i.val) 1 :=
  extractLsb'_extractLsb' _ (by decide)

theorem cellOf_shiftIn_zero :
    cellOf (shiftIn bit fb) 0 = bit ++ (cellOf fb 0).extractLsb' 1 7 := by
  rw [cellOf_upper_seven]
  exact extractLsb'_shiftIn_top (start := 72) (len := 7) bit fb rfl

/-- Cell `i + 1` and the lowest bit of cell `i` are nine bits in a row. -/
theorem cellOf_shiftIn_succ (i : Fin 9) :
    cellOf (shiftIn bit fb) i.succ =
      (cellOf fb i.castSucc).extractLsb' 0 1 ++ (cellOf fb i.succ).extractLsb' 1 7 := by
  rw [cellOf_upper_seven, cellOf_lowest_bit, Fin.val_succ, Fin.val_castSucc,
    BitVec.extractLsb'_append_extractLsb'_eq_extractLsb' (by omega), Nat.add_comm _ 1]
  exact extractLsb'_shiftIn bit fb (by simp; omega)

theorem compareValue_shiftIn :
    compareValue ltcdec (shiftIn bit fb) = bit ++ (compareValue ltcdec fb).extractLsb' 1 15 := by
  rw [compareValue_ltcdec, compareValue_ltcdec, extractLsb'_extractLsb' _ (by decide)]
  exact extractLsb'_shiftIn_top (start := 64) (len := 15) bit fb rfl

/-- The default pattern, shifted by one bit, is never the default pattern (R154). -/
theorem append_defaultPattern_ne :
    ∀ bit : BitVec 1, bit ++ (0xBFFC : Half).extractLsb' 1 15 ≠ (0xBFFC : Half) := by decide

theorem digitsOf_getElem (k : Fin 8) : (digitsOf fb)[k] = fb.extractLsb' (56 - 8 * k.val) 8 := by
  fin_cases k <;> rfl

end

/-! ### What one edge does to the digits and the output (R155, R156) -/

/-- What is the same in two states when no sync event lies between them. -/
def State.SyncUnchanged (s t : State) : Prop :=
  t.block.digits = s.block.digits ∧ t.out = s.out ∧ t.pins = s.pins

/-- What a sync event leaves: a new bit in the FrameBuffer, a match, the digits of the new FrameBuffer,
and the callback where it is enabled. -/
structure State.SyncMatched (s t : State) : Prop where
  shifted : ∃ bit, t.block.fb = shiftIn bit s.block.fb
  pattern : compareValue ltcdec t.block.fb = s.block.syncPattern
  digits : t.block.digits = digitsOf t.block.fb
  output : (s.block.syncEn = false ∧ t.out = s.out ∧ t.pins = s.pins) ∨
    (s.block.syncEn = true ∧ t.out = s.out ++ [{ digits := t.block.digits }] ∧
      t.pins = { s.pins with sync := true })

/-- Emitting a bit is a sync event or leaves digits and output. -/
theorem emit_sync_cases (bit : BitVec 1) (s : State) :
    s.SyncUnchanged (emit ltcdec bit s) ∨ s.SyncMatched (emit ltcdec bit s) := by
  rcases emit_cases ltcdec bit s with ⟨-, h⟩ | ⟨hmatch, hen, h⟩ | ⟨hmatch, hen, h⟩ <;> rw [h]
  · exact .inl ⟨rfl, rfl, rfl⟩
  · exact .inr ⟨⟨bit, rfl⟩, hmatch, rfl, .inl ⟨hen, rfl, rfl⟩⟩
  · exact .inr ⟨⟨bit, rfl⟩, hmatch, rfl, .inr ⟨hen, rfl, rfl⟩⟩

/-- Everything an edge can do to digits and output. -/
theorem exec_edge_sync_cases {now : Word} {s t : State} (h : exec (.edge now) s = .next t) :
    s.SyncUnchanged t ∨ s.SyncMatched t := by
  obtain ⟨-, rfl⟩ := edgeIn_eq_next.1 h
  obtain ⟨half, hmove⟩ | ⟨bit, hemit⟩ := processEdge_ltcdec_cases now s
  · rw [hmove]; exact .inl ⟨rfl, rfl, rfl⟩
  · rw [hemit]
    exact (emit_sync_cases bit (s.afterEdge now .idle)).imp id
      fun ⟨hshift, hmatch, hdigits, hout⟩ => ⟨hshift, hmatch, hdigits, hout⟩

/-! ### The obligations -/

/-- Settles O12: the edge emits the bit, and the cells of the shifted FrameBuffer are as R152 has them. -/
theorem shiftMovesBitsCellByCell : Obligations.ShiftMovesBitsCellByCell := by
  intro now bit s t hs hcase h
  rw [← classify_toNat_eq_long, ← classify_toNat_eq_short] at hcase
  rw [exec_edge_of_bit hs hcase] at h
  cases h
  rw [emit_fb]
  exact ⟨cellOf_shiftIn_zero bit s.block.fb, cellOf_shiftIn_succ bit s.block.fb⟩

/-- Settles O14: a host access keeps the digits, and an edge changes them only by a sync event. -/
theorem digitsChangeOnlyAtMatchOrReset : Obligations.DigitsChangeOnlyAtMatchOrReset := by
  intro i s t h hchanged
  by_cases hrate : ∃ sel, i = .resetRate sel
  · exact .inl hrate
  by_cases hdur : ∃ fd, i = .resetDur fd
  · exact .inr (.inl hdur)
  by_cases hedge : ∃ now, i = .edge now
  · obtain ⟨now, rfl⟩ := hedge
    obtain ⟨hdigits, -⟩ | ⟨hshift, hmatch, hdigits, -⟩ := exec_edge_sync_cases h
    · exact absurd hdigits hchanged
    · refine .inr (.inr ⟨now, rfl, (compareValue_ltcdec _).symm.trans hmatch, hshift, fun k => ?_⟩)
      rw [hdigits]; exact digitsOf_getElem _ k
  · obtain ⟨-, -, -, hdigits, -⟩ := onlyEdgesAndResetsDecode i s t h
      (not_exists.1 hedge) (not_exists.1 hrate) (not_exists.1 hdur)
    exact absurd hdigits hchanged

/-- Settles O15: without a sync event there is no output, and with one the output goes by `SYNC_EN`. -/
theorem oneSyncEventPerMatchAtMost : Obligations.OneSyncEventPerMatchAtMost := by
  intro now s t h
  obtain ⟨-, hout⟩ | ⟨-, hmatch, -, ⟨-, hquiet⟩ | ⟨hen, hout, hpins⟩⟩ := exec_edge_sync_cases h
  · exact .inl hout
  · exact .inl hquiet
  · exact .inr ⟨hen, (compareValue_ltcdec _).symm.trans hmatch, hout, hpins⟩

/-- Settles O16: a second match in a row would be the pattern equal to itself shifted by one bit. -/
theorem defaultPatternNeverMatchesTwiceRunning :
    Obligations.DefaultPatternNeverMatchesTwiceRunning := by
  intro now s t hpattern hnow h
  obtain hsame | ⟨⟨bit, hshift⟩, hmatch, -⟩ := exec_edge_sync_cases h
  · exact hsame
  · rw [hshift, compareValue_shiftIn, compareValue_ltcdec, hnow, hpattern] at hmatch
    exact absurd hmatch (append_defaultPattern_ne bit)

end Sys2Proof.Machine

/-! PROOF. The claims about host access (family `43_host_access.md`): the write rows, the read rows, the
read after a write, and the formatted text. First what each of them answers, and then the obligations. -/

namespace Sys2Proof.Machine

open Sys2Proof

/-! ### A register on the 32-bit bus (R36, R172) -/

theorem zext32_eq_ofNat {n : Nat} (v : BitVec n) : zext32 v = BitVec.ofNat 32 v.toNat :=
  (BitVec.ofNat_toNat 32 v).symm

theorem zext32_ofBool (e : Bool) : zext32 (BitVec.ofBool e) = BitVec.ofNat 32 e.toNat := by
  cases e <;> rfl

theorem zext32_toBit (half : HalfBitState) :
    zext32 half.toBit = if half = .halfBitPending then 1 else 0 := by
  cases half <;> rfl

/-- `10*a + b` of two bytes needs no more than 16 bits, so the pair function is exact (D13). -/
theorem pairToInt_toNat (a b : Byte) : (pairToInt a b).toNat = 10 * a.toNat + b.toNat := by
  have hten : (10 : Half).toNat = 10 := rfl
  simp only [pairToInt, BitVec.toNat_add, BitVec.toNat_mul, BitVec.toNat_setWidth, hten]
  omega

theorem zext32_pairToInt (a b : Byte) :
    zext32 (pairToInt a b) = BitVec.ofNat 32 (10 * a.toNat + b.toNat) := by
  rw [zext32_eq_ofNat, pairToInt_toNat]

/-- The one bit that `CTRL` keeps of the data (R173). -/
theorem zext32_narrowBit (data : Word) : zext32 (BitVec.ofBool (narrowBit data)) = data &&& 1 :=
  BitVec.and_one_eq_setWidth_ofBool_getLsbD.symm

/-- The 16 bits that `SYNC_PATTERN` keeps of the data (R172). -/
theorem zext32_narrow_half (data : Word) : zext32 (narrow 16 data) = data &&& 0xFFFF := by
  apply BitVec.eq_of_toNat_eq
  rw [BitVec.toNat_and, zext32_eq_ofNat]
  exact (Nat.mod_eq_of_lt (by omega)).trans (Nat.and_two_pow_sub_one_eq_mod data.toNat 16).symm

/-! ### What a write row answers (R170) -/

theorem hostWrite_syncPattern_extract (b : Block) (data : Word) :
    hostWrite b 0x04 data = { b with syncPattern := data.extractLsb' 0 16 } := by
  rw [← BitVec.setWidth_eq_extractLsb' (by decide)]
  exact hostWrite_syncPattern b data

theorem exec_write_row_of_hostWrite {i : Instr} {s : State} {addr : Byte} {data : Word} {b : Block}
    (hs : s.Ready) (hi : i.operation = .write addr data) (hb : hostWrite s.block addr data = b) :
    exec i s = .next { s with block := b } := by
  subst hb
  exact exec_write_row hs hi

/-! ### What a read row answers (R171)

A mapped address is the address of a register, and each register has one accessor row. -/

/-- A register as the host reads it: its number on the bus (R171, R172, R177 to R185). -/
def Block.busValue (b : Block) : HostReg → Word
  | .ctrl => BitVec.ofNat 32 b.syncEn.toNat
  | .status => if b.half = .halfBitPending then 1 else 0
  | .rateSel => BitVec.ofNat 32 b.rateSel.toNat
  | .bitDur => b.bitDur
  | .syncPattern => BitVec.ofNat 32 b.syncPattern.toNat
  | .shortMin => b.shortMin
  | .shortMax => b.shortMax
  | .longMin => b.longMin
  | .longMax => b.longMax
  | .cell i => BitVec.ofNat 32 (b.fb.extractLsb' (72 - 8 * i.val) 8).toNat
  | .digit k => BitVec.ofNat 32 b.digits[k].toNat
  | .hours => BitVec.ofNat 32 (10 * b.digits[0].toNat + b.digits[1].toNat)
  | .minutes => BitVec.ofNat 32 (10 * b.digits[2].toNat + b.digits[3].toNat)
  | .seconds => BitVec.ofNat 32 (10 * b.digits[4].toNat + b.digits[5].toNat)
  | .frames => BitVec.ofNat 32 (10 * b.digits[6].toNat + b.digits[7].toNat)

theorem readReg_ltcdec (b : Block) (r : HostReg) : readReg ltcdec b r = b.busValue r := by
  cases r with
  | ctrl => exact zext32_ofBool b.syncEn
  | status => exact zext32_toBit b.half
  | rateSel | syncPattern | cell _ | digit _ => exact zext32_eq_ofNat _
  | bitDur | shortMin | shortMax | longMin | longMax => rfl
  | hours | minutes | seconds | frames => exact zext32_pairToInt _ _

/-- The accessor row of a register (R99). -/
def getterOfReg : HostReg → Instr
  | .ctrl => .getCtrl
  | .status => .getStatus
  | .rateSel => .getRate
  | .bitDur => .getBitdur
  | .syncPattern => .getSync
  | .shortMin => .getShortMin
  | .shortMax => .getShortMax
  | .longMin => .getLongMin
  | .longMax => .getLongMax
  | .cell i => .getCell (BitVec.ofNat 4 i.val)
  | .digit k => .getDigit (BitVec.ofNat 3 k.val)
  | .hours => .getHours
  | .minutes => .getMinutes
  | .seconds => .getSeconds
  | .frames => .getFrames

theorem operation_getterOfReg (r : HostReg) : (getterOfReg r).operation = .read (addrOfReg r) := by
  cases r with
  | cell i => fin_cases i <;> rfl
  | digit k => fin_cases k <;> rfl
  | _ => rfl

theorem getterOfReg_cell {n : BitVec 4} (h : n ≤ 9) :
    getterOfReg (.cell ⟨n.toNat, Nat.lt_succ_of_le h⟩) = .getCell n := by
  simp [getterOfReg]

theorem getterOfReg_digit (k : BitVec 3) : getterOfReg (.digit ⟨k.toNat, k.isLt⟩) = .getDigit k := by
  simp [getterOfReg]

/-- The registers that are neither a cell nor a digit, in the order of their addresses (R68). -/
def singleRegs : List HostReg :=
  [.ctrl, .status, .rateSel, .bitDur, .syncPattern, .shortMin, .shortMax, .longMin, .longMax,
    .hours, .minutes, .seconds, .frames]

/-- The three gaps of the register map (R68). -/
theorem regOfAddr_of_gap : ∀ addr : Byte,
    0x09 ≤ addr ∧ addr ≤ 0x0F ∨ 0x1A ≤ addr ∧ addr ≤ 0x1F ∨ 0x2C ≤ addr →
      regOfAddr addr = none := by
  decide

theorem regOfAddr_of_illegal_cell : ∀ n : BitVec 4, ¬ n ≤ 9 → regOfAddr (0x1#4 ++ n) = none := by
  decide

section
variable {i : Instr} {s : State} (hs : s.Ready)
include hs

theorem exec_read_row {addr : Byte} (hi : i.operation = .read addr) :
    exec i s = .next (s.respond (hostRead ltcdec s.block addr)) := by
  rw [exec_eq_operate, hi]
  exact readIn_of_ready hs addr

theorem exec_read_row_of_unmapped {addr : Byte} (hi : i.operation = .read addr)
    (h : regOfAddr addr = none) : exec i s = .next (s.respond 0) := by
  rw [exec_read_row hs hi, hostRead, ltcdec_regOfAddr, h]

theorem exec_read_row_of_register {r : HostReg} (hi : i.operation = .read (addrOfReg r)) :
    exec i s = .next (s.respond (s.block.busValue r)) := by
  rw [exec_read_row hs hi, hostRead_of_register (regOfAddr_addrOfReg r), readReg_ltcdec]

theorem exec_rd_addrOfReg (r : HostReg) :
    exec (.rd (addrOfReg r)) s = .next (s.respond (s.block.busValue r)) :=
  exec_read_row_of_register hs rfl

theorem exec_getterOfReg (r : HostReg) :
    exec (getterOfReg r) s = .next (s.respond (s.block.busValue r)) :=
  exec_read_row_of_register hs (operation_getterOfReg r)

end

/-! ### A read after a write of the same address -/

theorem hostRead_hostWriteIn_of_register {c : Config} {addr : Byte} {r : HostReg}
    (h : c.regOfAddr addr = some r) (b : Block) (data : Word) :
    hostRead c (hostWriteIn c b addr data) addr = readReg c (writeReg c b data r) r := by
  simp [hostRead, hostWriteIn, h]

theorem hRdata_of_write_then_read {addr : Byte} {data : Word} {r : HostReg} {s t u : State}
    (hr : regOfAddr addr = some r) (ht : exec (.wr addr data) s = .next t)
    (hu : exec (.rd addr) t = .next u) :
    u.pins.hRdata = some (readReg ltcdec (writeReg ltcdec s.block data r) r) := by
  obtain ⟨-, rfl⟩ := writeIn_eq_next.1 ht
  obtain ⟨-, rfl⟩ := readIn_eq_next.1 hu
  exact congrArg some (hostRead_hostWriteIn_of_register (c := ltcdec) hr s.block data)

/-! ### The length of the formatted text (R186) -/

theorem decimalText_length_le (v : Byte) : (decimalText v).length ≤ 3 := by
  unfold decimalText
  split_ifs <;> simp

theorem decimalText_length_of_digit {v : Byte} (h : v.toNat ≤ 9) : (decimalText v).length = 1 := by
  simp [decimalText, Nat.lt_succ_of_le h]

/-- The eight numerals and the three separators. -/
theorem timecodeText_length (style : SeparatorStyle) (d : Digits) :
    (timecodeText style d).length = ∑ k : Fin 8, (decimalText d[k]).length + 3 := by
  simp +arith [timecodeText, pairText, Fin.sum_univ_eight]

/-! ### The obligations -/

/-- Settles O28: each of the six registers is read as the bits of the data it kept. -/
theorem readBackGivesWrittenBits : Obligations.ReadBackGivesWrittenBits := by
  intro addr data s t u ht hu
  refine ⟨?_, ?_, fun hmin hmax => ?_⟩
  · rintro rfl
    rw [hRdata_of_write_then_read rfl ht hu]
    exact congrArg some (zext32_narrowBit data)
  · rintro rfl
    rw [hRdata_of_write_then_read rfl ht hu]
    exact congrArg some (zext32_narrow_half data)
  · obtain rfl | rfl | rfl | rfl : addr = 0x05 ∨ addr = 0x06 ∨ addr = 0x07 ∨ addr = 0x08 := by
      bv_omega
    all_goals
      rw [hRdata_of_write_then_read rfl ht hu]
      exact congrArg some (timeOf_ltcdec data)

/-- Settles O47: every numeral has at most three characters, and one if its byte is a decimal digit. -/
theorem timecodeTextHasTemplateLength : Obligations.TimecodeTextHasTemplateLength := by
  intro style d
  rw [timecodeText_length]
  constructor
  · have hsum : ∑ k : Fin 8, (decimalText d[k]).length ≤ 8 * 3 :=
      Finset.sum_le_card_nsmul _ _ 3 fun k _ => decimalText_length_le d[k]
    omega
  · intro hdigits
    have hsum : ∑ k : Fin 8, (decimalText d[k]).length = 8 * 1 :=
      Finset.sum_eq_card_nsmul fun k _ => decimalText_length_of_digit (hdigits k)
    omega

/-- Settles O20: the six writable registers one by one, and the addresses that take nothing. -/
theorem writeTakesNamedRegister : Obligations.WriteTakesNamedRegister := by
  intro data s hs
  exact ⟨exec_write_row_of_hostWrite hs rfl (hostWrite_ctrl s.block data),
    exec_write_row_of_hostWrite hs rfl (hostWrite_syncPattern_extract s.block data),
    exec_write_row_of_hostWrite hs rfl (hostWrite_shortMin s.block data),
    exec_write_row_of_hostWrite hs rfl (hostWrite_shortMax s.block data),
    exec_write_row_of_hostWrite hs rfl (hostWrite_longMin s.block data),
    exec_write_row_of_hostWrite hs rfl (hostWrite_longMax s.block data),
    fun _ haddr => exec_write_row_of_hostWrite hs rfl (hostWrite_elsewhere s.block data haddr)⟩

/-- Settles O21: each setter is the write of its register, so O20 says what it answers. -/
theorem setterRowsTakeTheirRegister : Obligations.SetterRowsTakeTheirRegister := by
  intro data s hs
  obtain ⟨-, hpattern, hshortMin, hshortMax, hlongMin, hlongMax, -⟩ := writeTakesNamedRegister data s hs
  exact ⟨hpattern, hshortMin, hshortMax, hlongMin, hlongMax⟩

/-- Settles O22: the two rows write 1 and 0 to `CTRL`. -/
theorem callbackRowsSetTheEnableBit : Obligations.CallbackRowsSetTheEnableBit := by
  intro s hs
  exact ⟨exec_write_row_of_hostWrite hs rfl (hostWrite_ctrl s.block 1),
    exec_write_row_of_hostWrite hs rfl (hostWrite_ctrl s.block 0)⟩

/-- Settles O25: the table lists the single registers with their addresses and values, and the other
mapped addresses are those of a cell or a digit. -/
theorem readReturnsAddressedRegister : Obligations.ReadReturnsAddressedRegister := by
  rintro addr v s hs (hmem | ⟨i, rfl, rfl⟩ | ⟨k, rfl, rfl⟩ | ⟨hgap, rfl⟩)
  · obtain ⟨r, -, hr⟩ : ∃ r ∈ singleRegs, (addrOfReg r, s.block.busValue r) = (addr, v) :=
      List.mem_map.1 hmem
    cases hr
    exact exec_rd_addrOfReg hs r
  · exact exec_rd_addrOfReg hs (.cell i)
  · exact exec_rd_addrOfReg hs (.digit k)
  · exact exec_read_row_of_unmapped hs rfl (regOfAddr_of_gap addr hgap)

/-- Settles O26: the table lists the single registers with their accessors and values, and an index is
that of a cell or a digit, or names no register. -/
theorem accessorRowsReturnTheirRegister : Obligations.AccessorRowsReturnTheirRegister := by
  rintro i v s hs (hmem | ⟨n, rfl, rfl⟩ | ⟨k, rfl, rfl⟩)
  · obtain ⟨r, -, hr⟩ : ∃ r ∈ singleRegs, (getterOfReg r, s.block.busValue r) = (i, v) :=
      List.mem_map.1 hmem
    cases hr
    exact exec_getterOfReg hs r
  · split
    next hn =>
      rw [← getterOfReg_cell hn]
      exact exec_getterOfReg hs (.cell _)
    next hn => exact exec_read_row_of_unmapped hs rfl (regOfAddr_of_illegal_cell n hn)
  · rw [← getterOfReg_digit k]
    exact exec_getterOfReg hs (.digit _)

/-- Settles O48: the four texts are computed. -/
theorem timecodeTextOfWorkedExample : Obligations.TimecodeTextOfWorkedExample :=
  ⟨rfl, rfl, rfl, rfl⟩

end Sys2Proof.Machine

/-! PROOF. The claims that a constructed machine never stops (family `60_exceptions.md`): first one
operation, and then the step, which is a list of operations. -/

namespace Sys2Proof.Machine

open Sys2Proof

/-- Settles O30: a row's meaning is that of its operation, which completes and keeps the block
constructed. -/
theorem everyOperationCompletes : Obligations.EveryOperationCompletes := by
  intro i s hs
  rw [exec_eq_operate]
  obtain ⟨t, ht⟩ := operate_completes hs i.operation
  exact ⟨t, ht, operate_keeps_ready hs ht⟩

/-- Settles O37: starting the cycle and taking its inputs keeps the block constructed, and by O30 so does
every operation they present. -/
theorem constructedMachineNeverStops : Obligations.ConstructedMachineNeverStops := by
  intro s hs
  have hstart : (s.beginCycle.withInputs (s.inputs.drop ltcdec.inputsPerCycle)).Ready := hs
  exact performWith_completes everyOperationCompletes _ _ hstart

end Sys2Proof.Machine

/-! PROOF. The claim about the state before the first reset operation (family
`70_reset_and_hazards.md`): first the five operations of any `Config`, and then the rows. -/

namespace Sys2Proof.Machine

open Sys2Proof

/-- Edges, writes and reads all run under `whenConstructed`, whatever they would have done (R231). -/
theorem operate_refused_of_unconstructed {s : State} (hs : s.constructed = false) (c : Config)
    {op : Operation} (hrate : ∀ sel, op ≠ .resetRate sel) (hdur : ∀ fd, op ≠ .resetDur fd) :
    operate c op s = .refused .notConstructed := by
  cases op with
  | resetRate sel => exact absurd rfl (hrate sel)
  | resetDur fd => exact absurd rfl (hdur fd)
  | edge now => exact whenConstructed_of_not hs _
  | write addr data => exact whenConstructed_of_not hs _
  | read addr => exact whenConstructed_of_not hs _

/-- Settles O31: a row that is no reset row stands for an operation that is no reset operation. -/
theorem unconstructedOperationsAreRefused : Obligations.UnconstructedOperationsAreRefused := by
  intro i s hs hrate hdur
  rw [exec_eq_operate]
  exact operate_refused_of_unconstructed hs ltcdec
    (fun sel => mt operation_eq_resetRate.1 (hrate sel))
    (fun fd => mt operation_eq_resetDur.1 (hdur fd))

end Sys2Proof.Machine

/-! PROOF. The claims about the model's reset state and the words the spec writes out (family `other`):
first the reset state as a construction and what a word decodes to, and then the obligations. -/

namespace Sys2Proof.Machine

open Sys2Proof

/-! ### The reset state is a construction (log entry 1) -/

/-- The reset state's registers are those of the 25 fps construction (R42, R110). -/
theorem Block.reset_eq_constructBlock : Block.reset = constructBlock ltcdec 3 (bitDurOfRate .fps25) := by
  rw [constructBlock_ltcdec]
  rfl

theorem Block.reset_calibrationHeld : Block.reset.CalibrationHeld := by
  rw [Block.reset_eq_constructBlock]
  exact calibrationHeld_of_rate rfl

/-! ### What a word decodes to -/

/-- The decoder answers a row exactly on the word of that row, if it is well-formed: O42 and O43 in one. -/
theorem decode_eq_ok {w : StimulusWord} {i : Instr} :
    decode w = .ok i ↔ i.wf = true ∧ encode i = w := by
  constructor
  · exact encodeInvertsDecode w i
  · rintro ⟨hwf, rfl⟩
    exact decodeInvertsEncode i hwf

/-- A word is invalid for the reason its three fields give (R94). -/
theorem decode_packWord_error {op addr : Byte} {data : Word} {e : InvalidWord}
    (h : decodeFields ltcdec { op := op, addr := addr, data := data } = .error e) :
    decode (packWord op addr data) = .error e :=
  decode_eq_error.2 ((decodeBase_packWord op addr data).trans h)

/-! ### The obligations -/

/-- Settles O6: the code 3 names 25 fps, whose construction the reset state's registers are. -/
theorem resetStateIsTwentyFiveFps : Obligations.ResetStateIsTwentyFiveFps := by
  intro b out
  have hrate : rateOfSel 3 = some .fps25 := rfl
  rw [exec_resetRate_of_rate hrate, construct, ← Block.reset_eq_constructBlock]
  rfl

/-- Settles O35: the reset state's calibration is that of a construction, and its `sync` is low. -/
theorem resetMeetsInvariant : Obligations.ResetMeetsInvariant :=
  ⟨⟨fun _ => Block.reset_calibrationHeld, pulseShowsDigits_of_low rfl⟩, rfl⟩

/-- Settles O46: each valid word is the encoding of the row named, and each invalid word has the fields
written here. -/
theorem specExampleWordsDecode : Obligations.SpecExampleWordsDecode := by
  have hvalid : ∀ {w : StimulusWord} {i : Instr}, i.wf = true → encode i = w → decode w = .ok i :=
    fun hwf hw => decode_eq_ok.2 ⟨hwf, hw⟩
  exact ⟨hvalid rfl rfl, hvalid rfl rfl, hvalid rfl rfl, hvalid rfl rfl, hvalid rfl rfl, hvalid rfl rfl,
    hvalid rfl rfl, hvalid rfl rfl, hvalid rfl rfl, hvalid rfl rfl, hvalid rfl rfl,
    decode_packWord_error (op := 0x06) (addr := 0x00) (data := 0) rfl,
    decode_packWord_error (op := 0x01) (addr := 0x00) (data := 6) rfl,
    decode_packWord_error (op := 0x03) (addr := 0x01) (data := 500) rfl,
    decode_packWord_error (op := 0x05) (addr := 0x03) (data := 1) rfl,
    decode_packWord_error (op := 0x01) (addr := 0x00) (data := 0xB) rfl,
    hvalid rfl rfl, hvalid rfl rfl⟩

end Sys2Proof.Machine
